-- ==== Sys2Proof/Word.lean ====
section
/-! DEFINITION. The bit-vector types of the machine (00_scope.md R7: all values are unsigned bit fields). -/

namespace Sys2Proof

/-- Four bits: a field `X`, `Y` or `N` of an instruction word (R7, R92). -/
abbrev Nibble := BitVec 4

/-- Eight bits: a general register, a timer, a memory byte, an immediate `NN` (R7, R21, R27). -/
abbrev Byte := BitVec 8

/-- Twelve bits: an address field `NNN` (R92). -/
abbrev Addr := BitVec 12

/-- Sixteen bits: an instruction word, `I`, `pc`, a return address (R7, R23, R24, R26). -/
abbrev Word := BitVec 16

end Sys2Proof
end

