-- ==== Sys2Proof/Syntax.lean ====
section
/-! DEFINITION. The instructions: one constructor per row of spec/opcode_table.json (30_encoding.md R106). -/

namespace Sys2Proof

/-- The 35 instructions of R106 and the three reserved no-op rows (R102, R162, R196). A field the
instruction ignores (R101) is kept as an argument, so that a word and its instruction hold the same
sixteen bits (DESIGN CHOICE, log 28; safe). -/
inductive Instr where
  /-- `CLS` (R183); `ign` is `w[11:8]`, ignored. -/
  | cls (ign : Nibble)
  /-- `RET` (R132); `ign` is `w[11:8]`, ignored. -/
  | ret (ign : Nibble)
  /-- `SYS nnn` (R131), the catch-all of family 0; `nnn` is ignored. -/
  | sys (nnn : Addr)
  /-- `JP nnn` (R133). -/
  | jp (nnn : Addr)
  /-- `CALL nnn` (R134). -/
  | call (nnn : Addr)
  /-- `SE Vx, kk` (R135). -/
  | seImm (x : Nibble) (kk : Byte)
  /-- `SNE Vx, kk` (R136). -/
  | sneImm (x : Nibble) (kk : Byte)
  /-- `SE Vx, Vy` (R137); `ign` is `w[3:0]`, ignored. -/
  | seReg (x y ign : Nibble)
  /-- `LD Vx, kk` (R151). -/
  | ldImm (x : Nibble) (kk : Byte)
  /-- `ADD Vx, kk` (R152). -/
  | addImm (x : Nibble) (kk : Byte)
  /-- `LD Vx, Vy` (R153). -/
  | ldReg (x y : Nibble)
  /-- `OR Vx, Vy` (R154). -/
  | orReg (x y : Nibble)
  /-- `AND Vx, Vy` (R155). -/
  | andReg (x y : Nibble)
  /-- `XOR Vx, Vy` (R156). -/
  | xorReg (x y : Nibble)
  /-- `ADD Vx, Vy` (R157). -/
  | addReg (x y : Nibble)
  /-- `SUB Vx, Vy` (R158). -/
  | subReg (x y : Nibble)
  /-- `SHR Vx (, Vy)` (R159). -/
  | shr (x y : Nibble)
  /-- `SUBN Vx, Vy` (R160). -/
  | subnReg (x y : Nibble)
  /-- `SHL Vx (, Vy)` (R161). -/
  | shl (x y : Nibble)
  /-- `NOP.8` (R162): `n` is none of the nine keys; `x` and `y` are ignored. -/
  | nop8 (x y n : Nibble)
  /-- `SNE Vx, Vy` (R138); `ign` is `w[3:0]`, ignored. -/
  | sneReg (x y ign : Nibble)
  /-- `LD I, nnn` (R170). -/
  | ldI (nnn : Addr)
  /-- `JP V0, nnn` (R139). -/
  | jpV0 (nnn : Addr)
  /-- `RND Vx, kk` (R173). -/
  | rnd (x : Nibble) (kk : Byte)
  /-- `DRW Vx, Vy, n` (R181). -/
  | drw (x y n : Nibble)
  /-- `SKP Vx` (R190). -/
  | skp (x : Nibble)
  /-- `SKNP Vx` (R191). -/
  | sknp (x : Nibble)
  /-- `NOP.E` (R196): `nn` is neither 0x9E nor 0xA1; `x` is ignored. -/
  | nopE (x : Nibble) (nn : Byte)
  /-- `LD Vx, DT` (R193). -/
  | ldVxDT (x : Nibble)
  /-- `LD Vx, K` (R192). -/
  | ldVxK (x : Nibble)
  /-- `LD DT, Vx` (R194). -/
  | ldDTVx (x : Nibble)
  /-- `LD ST, Vx` (R195). -/
  | ldSTVx (x : Nibble)
  /-- `ADD I, Vx` (R171). -/
  | addI (x : Nibble)
  /-- `LD F, Vx` (R172). -/
  | ldF (x : Nibble)
  /-- `LD B, Vx` (R201). -/
  | ldB (x : Nibble)
  /-- `LD [I], Vx` (R202). -/
  | ldMemVx (x : Nibble)
  /-- `LD Vx, [I]` (R203). -/
  | ldVxMem (x : Nibble)
  /-- `NOP.F` (R196): `nn` is none of the nine keys of R99; `x` is ignored. -/
  | nopF (x : Nibble) (nn : Byte)
  deriving DecidableEq, Repr

end Sys2Proof
end

