-- ==== Sys2Proof/WellFormed.lean ====
section
/-! DEFINITION. Which terms of `Instr` are instructions of the machine: the four catch-all rows must not
hold a key that belongs to a defined instruction (30_encoding.md R96 to R99, R102). Every other field is
bounded by its type. -/

namespace Sys2Proof

/-- The keys of family 0 (R96): the low bytes of CLS and RET. -/
def family0Keys : List Byte := [0xE0#8, 0xEE#8]

/-- The keys of family 8 (R97): the low nibbles of its nine instructions. -/
def family8Keys : List Nibble :=
  [0x0#4, 0x1#4, 0x2#4, 0x3#4, 0x4#4, 0x5#4, 0x6#4, 0x7#4, 0xE#4]

/-- The keys of family E (R98): the low bytes of SKP and SKNP. -/
def familyEKeys : List Byte := [0x9E#8, 0xA1#8]

/-- The keys of family F (R99): the low bytes of its nine instructions. -/
def familyFKeys : List Byte :=
  [0x07#8, 0x0A#8, 0x15#8, 0x18#8, 0x1E#8, 0x29#8, 0x33#8, 0x55#8, 0x65#8]

/-- A term is well formed when a catch-all row's key is outside its family's keys (R102). -/
def Instr.wellFormed : Instr → Bool
  | .sys nnn => !(family0Keys.contains (nnn.extractLsb' 0 8))
  | .nop8 _ _ n => !(family8Keys.contains n)
  | .nopE _ nn => !(familyEKeys.contains nn)
  | .nopF _ nn => !(familyFKeys.contains nn)
  | .cls _ | .ret _ | .jp _ | .call _ | .seImm _ _ | .sneImm _ _ | .seReg _ _ _ | .ldImm _ _
  | .addImm _ _ | .ldReg _ _ | .orReg _ _ | .andReg _ _ | .xorReg _ _ | .addReg _ _ | .subReg _ _
  | .shr _ _ | .subnReg _ _ | .shl _ _ | .sneReg _ _ _ | .ldI _ | .jpV0 _ | .rnd _ _ | .drw _ _ _
  | .skp _ | .sknp _ | .ldVxDT _ | .ldVxK _ | .ldDTVx _ | .ldSTVx _ | .addI _ | .ldF _ | .ldB _
  | .ldMemVx _ | .ldVxMem _ => true

end Sys2Proof
end

