-- ==== Sys2Proof/Decode.lean ====
section
/-! DEFINITION. From bytes to an instruction and back (30_encoding.md R90 to R106). The bit patterns are
those of R106 (PRESUMED by the spec itself, D1, log 1). -/

namespace Sys2Proof

/-! ### The fields of a word (R91, R92; the places of `Y` and `N` are DEDUCED by R92, log 25) -/

/-- `OP = w[15:12]`. -/
def fieldOP (w : Word) : Nibble := w.extractLsb' 12 4

/-- `X = w[11:8]`. -/
def fieldX (w : Word) : Nibble := w.extractLsb' 8 4

/-- `Y = w[7:4]`. -/
def fieldY (w : Word) : Nibble := w.extractLsb' 4 4

/-- `N = w[3:0]`. -/
def fieldN (w : Word) : Nibble := w.extractLsb' 0 4

/-- `NN = w[7:0]`. -/
def fieldNN (w : Word) : Byte := w.extractLsb' 0 8

/-- `NNN = w[11:0]`. -/
def fieldNNN (w : Word) : Addr := w.extractLsb' 0 12

/-! ### The four secondary tables and the primary table -/

/-- Family 0, keyed by the low byte (R96; D2, log 2). -/
def decodeFamily0 (w : Word) : Instr :=
  match fieldNN w with
  | 0xE0#8 => .cls (fieldX w)
  | 0xEE#8 => .ret (fieldX w)
  | _ => .sys (fieldNNN w)

/-- Family 8, keyed by the low nibble (R97). -/
def decodeFamily8 (w : Word) : Instr :=
  match fieldN w with
  | 0x0#4 => .ldReg (fieldX w) (fieldY w)
  | 0x1#4 => .orReg (fieldX w) (fieldY w)
  | 0x2#4 => .andReg (fieldX w) (fieldY w)
  | 0x3#4 => .xorReg (fieldX w) (fieldY w)
  | 0x4#4 => .addReg (fieldX w) (fieldY w)
  | 0x5#4 => .subReg (fieldX w) (fieldY w)
  | 0x6#4 => .shr (fieldX w) (fieldY w)
  | 0x7#4 => .subnReg (fieldX w) (fieldY w)
  | 0xE#4 => .shl (fieldX w) (fieldY w)
  | _ => .nop8 (fieldX w) (fieldY w) (fieldN w)

/-- Family E, keyed by the low byte (R98; D2, log 2). -/
def decodeFamilyE (w : Word) : Instr :=
  match fieldNN w with
  | 0x9E#8 => .skp (fieldX w)
  | 0xA1#8 => .sknp (fieldX w)
  | _ => .nopE (fieldX w) (fieldNN w)

/-- Family F, keyed by the low byte (R99). -/
def decodeFamilyF (w : Word) : Instr :=
  match fieldNN w with
  | 0x07#8 => .ldVxDT (fieldX w)
  | 0x0A#8 => .ldVxK (fieldX w)
  | 0x15#8 => .ldDTVx (fieldX w)
  | 0x18#8 => .ldSTVx (fieldX w)
  | 0x1E#8 => .addI (fieldX w)
  | 0x29#8 => .ldF (fieldX w)
  | 0x33#8 => .ldB (fieldX w)
  | 0x55#8 => .ldMemVx (fieldX w)
  | 0x65#8 => .ldVxMem (fieldX w)
  | _ => .nopF (fieldX w) (fieldNN w)

/-- Primary dispatch on the top nibble (R94, R95); total (R102). The last arm is `OP` = 0xF, the one
value left. In rows 5 and 9 the low nibble is kept and ignored (R101; D4, log 4). -/
def decodeWord (w : Word) : Instr :=
  match fieldOP w with
  | 0x0#4 => decodeFamily0 w
  | 0x1#4 => .jp (fieldNNN w)
  | 0x2#4 => .call (fieldNNN w)
  | 0x3#4 => .seImm (fieldX w) (fieldNN w)
  | 0x4#4 => .sneImm (fieldX w) (fieldNN w)
  | 0x5#4 => .seReg (fieldX w) (fieldY w) (fieldN w)
  | 0x6#4 => .ldImm (fieldX w) (fieldNN w)
  | 0x7#4 => .addImm (fieldX w) (fieldNN w)
  | 0x8#4 => decodeFamily8 w
  | 0x9#4 => .sneReg (fieldX w) (fieldY w) (fieldN w)
  | 0xA#4 => .ldI (fieldNNN w)
  | 0xB#4 => .jpV0 (fieldNNN w)
  | 0xC#4 => .rnd (fieldX w) (fieldNN w)
  | 0xD#4 => .drw (fieldX w) (fieldY w) (fieldN w)
  | 0xE#4 => decodeFamilyE w
  | _ => decodeFamilyF w

/-! ### Bytes: the higher byte at the lower address (R68, R90) -/

/-- The word two bytes form, the byte at the lower address first (R65: `mem[pc] ‖ mem[pc+1]`). -/
def wordOfBytes (hi lo : Byte) : Word := (hi.setWidth 16 <<< 8) ||| lo.setWidth 16

/-- The two bytes of a word in address order. -/
def bytesOfWord (w : Word) : List Byte := [w.extractLsb' 8 8, w.extractLsb' 0 8]

/-- Why bytes give no instruction. No word is refused (R102), only bytes that are no whole word. -/
inductive DecodeError where
  /-- fewer than two bytes: no instruction is shorter than one word (R90) -/
  | truncated
  deriving DecidableEq, Repr

/-- Reads one instruction from the front of a list of bytes and gives the rest back. -/
def decodeBytes : List Byte → Except DecodeError (Instr × List Byte)
  | hi :: lo :: rest => .ok (decodeWord (wordOfBytes hi lo), rest)
  | [_] => .error .truncated
  | [] => .error .truncated

/-! ### The encoder, from the patterns of R106 -/

/-- A word of format NNN (R91). -/
def wordNNN (op : Nibble) (nnn : Addr) : Word := (op.setWidth 16 <<< 12) ||| nnn.setWidth 16

/-- A word of format XNN or Xkk (R91). -/
def wordXNN (op x : Nibble) (nn : Byte) : Word :=
  (op.setWidth 16 <<< 12) ||| (x.setWidth 16 <<< 8) ||| nn.setWidth 16

/-- A word of format XY, XYN or XYk (R91). -/
def wordXYN (op x y n : Nibble) : Word :=
  (op.setWidth 16 <<< 12) ||| (x.setWidth 16 <<< 8) ||| (y.setWidth 16 <<< 4) ||| n.setWidth 16

/-- The word of an instruction, row by row of R106. -/
def encode : Instr → Word
  | .cls ign => wordXNN 0x0#4 ign 0xE0#8
  | .ret ign => wordXNN 0x0#4 ign 0xEE#8
  | .sys nnn => wordNNN 0x0#4 nnn
  | .jp nnn => wordNNN 0x1#4 nnn
  | .call nnn => wordNNN 0x2#4 nnn
  | .seImm x kk => wordXNN 0x3#4 x kk
  | .sneImm x kk => wordXNN 0x4#4 x kk
  | .seReg x y ign => wordXYN 0x5#4 x y ign
  | .ldImm x kk => wordXNN 0x6#4 x kk
  | .addImm x kk => wordXNN 0x7#4 x kk
  | .ldReg x y => wordXYN 0x8#4 x y 0x0#4
  | .orReg x y => wordXYN 0x8#4 x y 0x1#4
  | .andReg x y => wordXYN 0x8#4 x y 0x2#4
  | .xorReg x y => wordXYN 0x8#4 x y 0x3#4
  | .addReg x y => wordXYN 0x8#4 x y 0x4#4
  | .subReg x y => wordXYN 0x8#4 x y 0x5#4
  | .shr x y => wordXYN 0x8#4 x y 0x6#4
  | .subnReg x y => wordXYN 0x8#4 x y 0x7#4
  | .shl x y => wordXYN 0x8#4 x y 0xE#4
  | .nop8 x y n => wordXYN 0x8#4 x y n
  | .sneReg x y ign => wordXYN 0x9#4 x y ign
  | .ldI nnn => wordNNN 0xA#4 nnn
  | .jpV0 nnn => wordNNN 0xB#4 nnn
  | .rnd x kk => wordXNN 0xC#4 x kk
  | .drw x y n => wordXYN 0xD#4 x y n
  | .skp x => wordXNN 0xE#4 x 0x9E#8
  | .sknp x => wordXNN 0xE#4 x 0xA1#8
  | .nopE x nn => wordXNN 0xE#4 x nn
  | .ldVxDT x => wordXNN 0xF#4 x 0x07#8
  | .ldVxK x => wordXNN 0xF#4 x 0x0A#8
  | .ldDTVx x => wordXNN 0xF#4 x 0x15#8
  | .ldSTVx x => wordXNN 0xF#4 x 0x18#8
  | .addI x => wordXNN 0xF#4 x 0x1E#8
  | .ldF x => wordXNN 0xF#4 x 0x29#8
  | .ldB x => wordXNN 0xF#4 x 0x33#8
  | .ldMemVx x => wordXNN 0xF#4 x 0x55#8
  | .ldVxMem x => wordXNN 0xF#4 x 0x65#8
  | .nopF x nn => wordXNN 0xF#4 x nn

/-- The bytes of an instruction in address order (R68). -/
def encodeBytes (i : Instr) : List Byte := bytesOfWord (encode i)

/-! ### The opcode table, in its own order -/

/-- One row of spec/opcode_table.json: a word is of this row when `w and mask = pattern` and no
earlier row has it. -/
structure OpcodeRow where
  mnemonic : String
  mask : Word
  pattern : Word
  deriving DecidableEq, Repr

/-- Families 0 to 7 of R106. -/
def opcodeRowsLow : List OpcodeRow :=
  [⟨"CLS", 0xF0FF#16, 0x00E0#16⟩, ⟨"RET", 0xF0FF#16, 0x00EE#16⟩, ⟨"SYS_nnn", 0xF000#16, 0x0000#16⟩,
   ⟨"JP_nnn", 0xF000#16, 0x1000#16⟩, ⟨"CALL_nnn", 0xF000#16, 0x2000#16⟩,
   ⟨"SE_Vx__kk", 0xF000#16, 0x3000#16⟩, ⟨"SNE_Vx__kk", 0xF000#16, 0x4000#16⟩,
   ⟨"SE_Vx__Vy", 0xF000#16, 0x5000#16⟩, ⟨"LD_Vx__kk", 0xF000#16, 0x6000#16⟩,
   ⟨"ADD_Vx__kk", 0xF000#16, 0x7000#16⟩]

/-- Family 8 of R106 with its reserved row. -/
def opcodeRowsFamily8 : List OpcodeRow :=
  [⟨"LD_Vx__Vy", 0xF00F#16, 0x8000#16⟩, ⟨"OR_Vx__Vy", 0xF00F#16, 0x8001#16⟩,
   ⟨"AND_Vx__Vy", 0xF00F#16, 0x8002#16⟩, ⟨"XOR_Vx__Vy", 0xF00F#16, 0x8003#16⟩,
   ⟨"ADD_Vx__Vy", 0xF00F#16, 0x8004#16⟩, ⟨"SUB_Vx__Vy", 0xF00F#16, 0x8005#16⟩,
   ⟨"SHR_Vx____Vy", 0xF00F#16, 0x8006#16⟩, ⟨"SUBN_Vx__Vy", 0xF00F#16, 0x8007#16⟩,
   ⟨"SHL_Vx____Vy", 0xF00F#16, 0x800E#16⟩, ⟨"NOP.8", 0xF000#16, 0x8000#16⟩]

/-- Families 9 to E of R106 with the reserved row of family E. -/
def opcodeRowsHigh : List OpcodeRow :=
  [⟨"SNE_Vx__Vy", 0xF000#16, 0x9000#16⟩, ⟨"LD_I__nnn", 0xF000#16, 0xA000#16⟩,
   ⟨"JP_V0__nnn", 0xF000#16, 0xB000#16⟩, ⟨"RND_Vx__kk", 0xF000#16, 0xC000#16⟩,
   ⟨"DRW_Vx__Vy__n", 0xF000#16, 0xD000#16⟩, ⟨"SKP_Vx", 0xF0FF#16, 0xE09E#16⟩,
   ⟨"SKNP_Vx", 0xF0FF#16, 0xE0A1#16⟩, ⟨"NOP.E", 0xF000#16, 0xE000#16⟩]

/-- Family F of R106 with its reserved row. -/
def opcodeRowsFamilyF : List OpcodeRow :=
  [⟨"LD_Vx__DT", 0xF0FF#16, 0xF007#16⟩, ⟨"LD_Vx__K", 0xF0FF#16, 0xF00A#16⟩,
   ⟨"LD_DT__Vx", 0xF0FF#16, 0xF015#16⟩, ⟨"LD_ST__Vx", 0xF0FF#16, 0xF018#16⟩,
   ⟨"ADD_I__Vx", 0xF0FF#16, 0xF01E#16⟩, ⟨"LD_F__Vx", 0xF0FF#16, 0xF029#16⟩,
   ⟨"LD_B__Vx", 0xF0FF#16, 0xF033#16⟩, ⟨"LD__I___Vx", 0xF0FF#16, 0xF055#16⟩,
   ⟨"LD_Vx___I", 0xF0FF#16, 0xF065#16⟩, ⟨"NOP.F", 0xF000#16, 0xF000#16⟩]

/-- The 38 rows in priority order. -/
def opcodeRows : List OpcodeRow :=
  opcodeRowsLow ++ opcodeRowsFamily8 ++ opcodeRowsHigh ++ opcodeRowsFamilyF

/-- Whether a row's mask and pattern have the word. -/
def OpcodeRow.matchesWord (r : OpcodeRow) (w : Word) : Bool := w &&& r.mask == r.pattern

/-- The table's reading of a word: the mnemonic of the first row that has it. -/
def tableMnemonic (w : Word) : Option String :=
  (opcodeRows.find? (fun r => r.matchesWord w)).map OpcodeRow.mnemonic

/-- The mnemonic of an instruction, as spec/opcode_table.json spells it. -/
def Instr.mnemonic : Instr → String
  | .cls _ => "CLS"
  | .ret _ => "RET"
  | .sys _ => "SYS_nnn"
  | .jp _ => "JP_nnn"
  | .call _ => "CALL_nnn"
  | .seImm _ _ => "SE_Vx__kk"
  | .sneImm _ _ => "SNE_Vx__kk"
  | .seReg _ _ _ => "SE_Vx__Vy"
  | .ldImm _ _ => "LD_Vx__kk"
  | .addImm _ _ => "ADD_Vx__kk"
  | .ldReg _ _ => "LD_Vx__Vy"
  | .orReg _ _ => "OR_Vx__Vy"
  | .andReg _ _ => "AND_Vx__Vy"
  | .xorReg _ _ => "XOR_Vx__Vy"
  | .addReg _ _ => "ADD_Vx__Vy"
  | .subReg _ _ => "SUB_Vx__Vy"
  | .shr _ _ => "SHR_Vx____Vy"
  | .subnReg _ _ => "SUBN_Vx__Vy"
  | .shl _ _ => "SHL_Vx____Vy"
  | .nop8 _ _ _ => "NOP.8"
  | .sneReg _ _ _ => "SNE_Vx__Vy"
  | .ldI _ => "LD_I__nnn"
  | .jpV0 _ => "JP_V0__nnn"
  | .rnd _ _ => "RND_Vx__kk"
  | .drw _ _ _ => "DRW_Vx__Vy__n"
  | .skp _ => "SKP_Vx"
  | .sknp _ => "SKNP_Vx"
  | .nopE _ _ => "NOP.E"
  | .ldVxDT _ => "LD_Vx__DT"
  | .ldVxK _ => "LD_Vx__K"
  | .ldDTVx _ => "LD_DT__Vx"
  | .ldSTVx _ => "LD_ST__Vx"
  | .addI _ => "ADD_I__Vx"
  | .ldF _ => "LD_F__Vx"
  | .ldB _ => "LD_B__Vx"
  | .ldMemVx _ => "LD__I___Vx"
  | .ldVxMem _ => "LD_Vx___I"
  | .nopF _ _ => "NOP.F"

/-! ### The host's numbering of an instruction's bits -/

/-- The word a table row's bits stand for: bit 0 is the least significant bit of the one word, bits at
or above `nbits` are 0, and a bit above 15 belongs to no instruction (R90). -/
def tableWord (nbits w : Nat) : Word := BitVec.ofNat 16 (w % 2 ^ nbits)

/-- The instruction the decoder reads from those bits, laid out as memory holds them. -/
def decodeTableWord (nbits w : Nat) : Option Instr :=
  match decodeBytes (bytesOfWord (tableWord nbits w)) with
  | .ok (i, _) => some i
  | .error _ => none

end Sys2Proof
end

