-- ==== Sys2Proof/Config.lean ====
section
/-! DEFINITION. What the spec fixes (00_scope.md R5), what it leaves as a parameter (R6), and the free value (R38, R174). -/

namespace Sys2Proof

/-- `SHIFT_SRC` (R6, D7): the register the two shift instructions read. -/
inductive ShiftSrc where
  /-- they read `V[X]` (the spec's default) -/
  | x
  /-- they read `V[Y]` -/
  | y
  deriving DecidableEq, Repr

/-- `DRAW_EDGE` (R6, R182, D12): what a draw does with a pixel past the right or bottom edge. -/
inductive DrawEdge where
  /-- the pixel is not drawn (the spec's default) -/
  | clip
  /-- the pixel comes back at the opposite edge -/
  | wrap
  deriving DecidableEq, Repr

/-- `KEYWAIT_PICK` (R6, R192, D26): the key the key-wait reports when several are pressed. -/
inductive KeywaitPick where
  /-- the highest index (the spec's default) -/
  | highest
  /-- the lowest index -/
  | lowest
  deriving DecidableEq, Repr

/-- The open parameters of R6 that a handler reads. DESIGN CHOICE (log 24): they are carried in
`State`, where no step changes them, so a statement about every state holds for every choice. Safe. -/
structure Parameters where
  shiftSrc : ShiftSrc
  drawEdge : DrawEdge
  keywaitPick : KeywaitPick
  deriving DecidableEq, Repr

/-- Everything R6 leaves to a configuration argument but `rnd`, which is an input of each step (log 15). -/
structure Configuration where
  /-- the parameters that handlers read -/
  params : Parameters
  /-- `FONT` (R6, R43, D16): the content of memory 0x000 to 0x04F after reset; no handler reads it
  otherwise than as memory -/
  font : Vector Byte 80
  deriving DecidableEq, Repr

/-- `FONT_BASE` (R5): where the font stands after reset. -/
abbrev Config.fontBase : Nat := 0x000

/-- `MEM_SIZE` (R5): bytes of memory. -/
abbrev Config.memSize : Nat := 4096

/-- `LOAD_ADDR` (R5): where the image is loaded, and the reset value of `pc`. -/
abbrev Config.loadAddr : Nat := 0x200

/-- `MAX_IMAGE` (R5): the largest image the loader accepts. -/
abbrev Config.maxImage : Nat := 3584

/-- `STACK_DEPTH` (R5): entries of the return-address stack. -/
abbrev Config.stackDepth : Nat := 16

/-- The free random byte of the k-th draw (R38, R174, D15): no body, so nothing constrains it
(DESIGN CHOICE of the form, log 15; safe). -/
opaque Config.freeByte : Nat → Byte

end Sys2Proof
end

