-- ==== Sys2Proof/Machine/Defaults.lean ====
section
/-! DEFINITION. The values the spec recommends where it leaves a parameter open (00_scope.md R6; 10_state.md R43),
and what an address that nothing has written reads as (R44). -/

namespace Sys2Proof.Machine

/-- The default parameters: `SHIFT_SRC` = X (D7, log 7), `DRAW_EDGE` = clip (D12, log 12),
`KEYWAIT_PICK` = highest (D26, log 22). -/
def defaultParameters : Parameters :=
  { shiftSrc := .x, drawEdge := .clip, keywaitPick := .highest }

/-- Glyphs 0 to 7 of the default `FONT` (R43; PRESUMED, D16, log 16). -/
def fontLow : List Byte :=
  [0xF0#8, 0x90#8, 0x90#8, 0x90#8, 0xF0#8] ++ [0x20#8, 0x60#8, 0x20#8, 0x20#8, 0x70#8] ++
  [0xF0#8, 0x10#8, 0xF0#8, 0x80#8, 0xF0#8] ++ [0xF0#8, 0x10#8, 0xF0#8, 0x10#8, 0xF0#8] ++
  [0x90#8, 0x90#8, 0xF0#8, 0x10#8, 0x10#8] ++ [0xF0#8, 0x80#8, 0xF0#8, 0x10#8, 0xF0#8] ++
  [0xF0#8, 0x80#8, 0xF0#8, 0x90#8, 0xF0#8] ++ [0xF0#8, 0x10#8, 0x20#8, 0x40#8, 0x40#8]

/-- Glyphs 8 to F of the default `FONT` (R43; PRESUMED, D16, log 16). -/
def fontHigh : List Byte :=
  [0xF0#8, 0x90#8, 0xF0#8, 0x90#8, 0xF0#8] ++ [0xF0#8, 0x90#8, 0xF0#8, 0x10#8, 0xF0#8] ++
  [0xF0#8, 0x90#8, 0xF0#8, 0x90#8, 0x90#8] ++ [0xE0#8, 0x90#8, 0xE0#8, 0x90#8, 0xE0#8] ++
  [0xF0#8, 0x80#8, 0x80#8, 0x80#8, 0xF0#8] ++ [0xE0#8, 0x90#8, 0x90#8, 0x90#8, 0xE0#8] ++
  [0xF0#8, 0x80#8, 0xF0#8, 0x80#8, 0xF0#8] ++ [0xF0#8, 0x80#8, 0xF0#8, 0x80#8, 0x80#8]

/-- The default `FONT` as a list: the glyph of digit d is bytes 5*d to 5*d + 4, top row first (R43). -/
def font : List Byte := fontLow ++ fontHigh

/-- The default configuration: every parameter of R6 at its default. -/
def defaultConfiguration : Configuration :=
  { params := defaultParameters, font := ⟨font.toArray, rfl⟩ }

/-- What an address that memory does not list reads as: its reset content under the default
configuration, the font at 0x000 to 0x04F and zero above (R44; log 27). -/
def resetByte (a : Nat) : Byte := (font[a]?).getD 0#8

end Sys2Proof.Machine
end

