-- ==== Sys2Proof/Machine/State.lean ====
section
/-! DEFINITION. The Machine State (10_state.md R20 to R34), its value at reset (R44), and the ways a step can stop
(60_exceptions.md R211, R231). -/

namespace Sys2Proof.Machine

/-- Memory (R27, R60): the bytes that differ from the reset content, by rising address. The canonical
form is `Memory.wf` of Machine/Ops.lean; an unlisted address reads as `resetByte` (log 27). -/
abbrev Memory := List Host.Cell

/-- The display buffer (R30): `disp[y][x]`, row by row, so every pixel is 0 or 1 by its type. -/
abbrev Display := Vector (Vector Bool 64) 32

/-- The Machine State (R20). -/
structure State where
  /-- `V0` to `VF`; `VF` is the flag register (R21, R22) -/
  v : Vector Byte 16
  /-- `I`, the index register (R23) -/
  i : Word
  /-- the program counter (R24) -/
  pc : Word
  /-- the stack pointer: how many return addresses are on the stack (R25) -/
  sp : Byte
  /-- the return-address stack, outside memory (R26) -/
  stack : Vector Word 16
  /-- memory (R27) -/
  mem : Memory
  /-- `DT`, the delay timer (R28) -/
  dt : Byte
  /-- `ST`, the sound timer (R29) -/
  st : Byte
  /-- the display buffer (R30) -/
  disp : Display
  /-- the redraw flag (R31) -/
  redraw : Bool
  /-- the key state, written from outside only (R32) -/
  keys : Vector Bool 16
  /-- the open parameters (R6); the model's own field (DESIGN CHOICE, log 24) -/
  params : Parameters
  /-- bytes supplied at the random port and not yet consumed (R38, R174); the model's own field
  (DESIGN CHOICE, log 15) -/
  rndInput : List Byte
  /-- how many free random bytes have been drawn; the model's own field (DESIGN CHOICE, log 15) -/
  rndDraws : Nat
  deriving DecidableEq, Repr

/-- The errors the block raises (R211, R212). Each carries the state after the error (R214), as R231
asks; the run ends there (D17, log 17). -/
inductive Fault where
  /-- raised by the fetch at an odd `pc` (R65); the state is unchanged. Safe: it is the spec's own error. -/
  | invalidAddress (after : State)
  /-- raised by the fetch at an even `pc` of 4096 or more, and by DRW, LD B, LD [I], LD Vx,[I] when the
  range passes 4096 (R61, R65, R181, R200). Safe: it is the spec's own error. -/
  | memoryOutOfBounds (after : State)
  /-- raised by CALL with a full stack (R134). Safe: it is the spec's own error. -/
  | stackOverflow (after : State)
  /-- raised by RET with an empty stack (R132). Safe: it is the spec's own error. -/
  | stackUnderflow (after : State)
  deriving DecidableEq, Repr

/-- Where the spec gives no meaning. -/
inductive Refusal where
  /-- an instruction without a meaning in this model: none is left. Safe. -/
  | notModelled (mnemonic : String)
  /-- RET with `sp` above 16, which "has no meaning" (R132, R256): a model "refuses such a state", and no
  run reaches one (log 21). Safe. -/
  | stackPointerAboveSixteen
  deriving DecidableEq, Repr

/-- What a step or a handler answers. -/
abbrev Result := Host.Outcome State Fault Refusal

/-- The machine right after reset (R44, R240) under the default configuration: all zero, `pc` at the load
address, memory with nothing listed (the font and zeros). For every configuration: `State.resetWith` of
Machine/Ports.lean (log 32). -/
def State.reset : State where
  v := Vector.replicate 16 0#8
  i := 0x0000#16
  pc := BitVec.ofNat 16 Config.loadAddr
  sp := 0x00#8
  stack := Vector.replicate 16 0x0000#16
  mem := []
  dt := 0x00#8
  st := 0x00#8
  disp := Vector.replicate 32 (Vector.replicate 64 false)
  redraw := false
  keys := Vector.replicate 16 false
  params := defaultParameters
  rndInput := []
  rndDraws := 0

end Sys2Proof.Machine
end

