-- ==== Sys2Proof/Machine/Ops.lean ====
section
/-! DEFINITION. The named operations of the block: registers, memory (20_memory.md R60 to R63), control transfer,
the return-address stack (10_state.md R26), and raising an error (60_exceptions.md R213). -/

namespace Sys2Proof.Machine

/-! ### Registers (R21) -/

/-- `V[x]`. -/
def State.reg (s : State) (x : Nibble) : Byte := s.v[x.toNat]'x.isLt

/-- `V[x] <- b`. -/
def State.setReg (s : State) (x : Nibble) (b : Byte) : State :=
  { s with v := s.v.set x.toNat b x.isLt }

/-- The selector of the flag register (R5 `FLAG_REG`, R22). -/
def regF : Nibble := 0xF#4

/-- `for k: V[x + k] <- bytes[k]`, in ascending order (R203). -/
def State.setRegs (x : Nibble) : List Byte → State → State
  | [], s => s
  | b :: bs, s => State.setRegs (x + 1#4) bs (s.setReg x b)

/-- `[V[0], ..., V[n-1]]` (R202). -/
def State.regs (s : State) (n : Nat) : List Byte :=
  (List.range n).map fun k => s.reg (BitVec.ofNat 4 k)

/-! ### Memory -/

/-- `mem[a]` (R75: the latest write, or the reset content). -/
def Memory.read : Memory → Nat → Byte
  | [], a => resetByte a
  | (k, b) :: rest, a => if k = a then b else Memory.read rest a

/-- Memory without the byte listed at `a`, which then reads as its reset content. -/
def Memory.unlist (m : Memory) (a : Nat) : Memory := m.filter fun c => c.1 != a

/-- Memory with a byte listed at `a`, before the first address above it. -/
def Memory.insert : Memory → Nat → Byte → Memory
  | [], a, b => [(a, b)]
  | (k, c) :: rest, a, b =>
    if k < a then (k, c) :: Memory.insert rest a b else (a, b) :: (k, c) :: rest

/-- `mem[a] <- b`, keeping the canonical form: a byte equal to the reset content is not listed. -/
def Memory.write (m : Memory) (a : Nat) (b : Byte) : Memory :=
  if b = resetByte a then m.unlist a else (m.unlist a).insert a b

/-- The canonical form: addresses strictly rising and below 4096, no byte equal to the reset content. -/
def Memory.wf : Memory → Bool
  | [] => true
  | (a, b) :: rest =>
    decide (a < Config.memSize) && b != resetByte a && rest.all (fun c => decide (a < c.1)) &&
      Memory.wf rest

/-- `n` bytes from `a`, lowest address first (R62). -/
def Memory.readBytes (m : Memory) (a n : Nat) : List Byte :=
  (List.range n).map fun k => m.read (a + k)

/-- `mem[a + k] <- bytes[k]`, lowest address first (R63). -/
def Memory.writeBytes : Memory → Nat → List Byte → Memory
  | m, _, [] => m
  | m, a, b :: bs => Memory.writeBytes (m.write a b) (a + 1) bs

/-- The bounds check (R61): the access fails when `addr + len > 4096`; the sum does not wrap (R64). -/
def inBounds (addr len : Nat) : Bool := decide (addr + len ≤ Config.memSize)

/-! ### Errors -/

/-- The error kinds in the source's order (R211). The first two belong to the software wrapper and no
operation of the block raises them. -/
inductive ErrorKind where
  | nullReference
  | fileNotFound
  | invalidAddress
  | memoryOutOfBounds
  | stackOverflow
  | stackUnderflow
  deriving DecidableEq, Repr

/-- The spec's numbering of the kinds; 0 is success (R211; D17, log 30). -/
def ErrorKind.code : ErrorKind → Nat
  | .nullReference => 1
  | .fileNotFound => 2
  | .invalidAddress => 3
  | .memoryOutOfBounds => 4
  | .stackOverflow => 5
  | .stackUnderflow => 6

/-- The kind of an error the block raised. -/
def Fault.kind : Fault → ErrorKind
  | .invalidAddress _ => .invalidAddress
  | .memoryOutOfBounds _ => .memoryOutOfBounds
  | .stackOverflow _ => .stackOverflow
  | .stackUnderflow _ => .stackUnderflow

/-- The state after the error (R214). There is no return from an error (R217, R218): a host that steps
again steps from this state, which the spec calls a divergence and does not model (R231). -/
def Fault.after : Fault → State
  | .invalidAddress s => s
  | .memoryOutOfBounds s => s
  | .stackOverflow s => s
  | .stackUnderflow s => s

/-- `raise E` (R10, R213): the step ends at once with the error; every write made before it, all in `s`,
stands, and nothing is saved. -/
def raise (error : State → Fault) (s : State) : Result := .fault (error s)

/-- The status at the step port (R36, R211): 0 for success, the error's code for an error, none where
the spec gives no meaning. -/
def statusCode : Result → Option Nat
  | .next _ => some 0
  | .fault f => some f.kind.code
  | .refused _ => none

/-- `MemRead(addr, n)` (R62): the check on the whole range first, then the bytes go to `body`. -/
def memRead (addr n : Nat) (s : State) (body : List Byte → Result) : Result :=
  if inBounds addr n then body (s.mem.readBytes addr n) else raise .memoryOutOfBounds s

/-- `MemWrite(addr, n, bytes)` with n the number of bytes (R63): the check on the whole range first;
when it fails no byte is written. -/
def memWrite (addr : Nat) (bytes : List Byte) (s : State) : Result :=
  if inBounds addr bytes.length then .next { s with mem := s.mem.writeBytes addr bytes }
  else raise .memoryOutOfBounds s

/-! ### The program counter (R24; arithmetic modulo 65536, D6, log 6) -/

/-- `pc <- (pc + 2) mod 65536`: the fetch unit's advance (R66) and a taken skip. -/
def State.advance (s : State) : State := { s with pc := s.pc + 2#16 }

/-- `pc <- (pc - 2) mod 65536`: undoes the fetch advance (R192). -/
def State.rewind (s : State) : State := { s with pc := s.pc - 2#16 }

/-- `pc <- target`, unchecked (R24, R140). -/
def State.jumpTo (s : State) (target : Word) : State := { s with pc := target }

/-- A conditional skip (R12, R130). -/
def State.skipIf (s : State) (condition : Bool) : State := if condition then s.advance else s

/-! ### The return-address stack (R26) -/

/-- `stack[k]` for k below 16. -/
def State.stackAt (s : State) (k : Nat) : Option Word := s.stack[k]?

/-- `call(addr)`: StackOverflow when full, else push the advanced `pc` and jump (R134). The test is
`sp >= 16` (D22, log 21). -/
def pushAndJump (target : Word) (s : State) : Result :=
  if h : s.sp.toNat < 16 then
    .next { s with stack := s.stack.set s.sp.toNat s.pc h, sp := s.sp + 1#8, pc := target }
  else raise .stackOverflow s

/-- `ret()`: StackUnderflow when empty, else pop into `pc` (R132); the entry keeps its value (D22,
log 21). With `sp` above 16 the entry is outside the stack and the form is refused (R256). -/
def popAndJump (s : State) : Result :=
  if s.sp = 0#8 then raise .stackUnderflow s
  else
    match s.stackAt (s.sp - 1#8).toNat with
    | some target => .next { s with sp := s.sp - 1#8, pc := target }
    | none => .refused .stackPointerAboveSixteen

/-! ### The display (R180) -/

/-- `disp[y][x]` in a buffer. -/
def Display.pixel (d : Display) (x : Fin 64) (y : Fin 32) : Bool := d[y][x]

/-- `disp[y][x] <- disp[y][x] xor 1`. -/
def Display.toggle (d : Display) (x : Fin 64) (y : Fin 32) : Display :=
  d.set y (d[y].set x (!d[y][x]))

/-- `disp[y][x]` of the machine. -/
def State.pixel (s : State) (x : Fin 64) (y : Fin 32) : Bool := Display.pixel s.disp x y

/-- The display with every pixel 0 (R183). -/
def Display.blank : Display := Vector.replicate 32 (Vector.replicate 64 false)

end Sys2Proof.Machine
end

