-- ==== Sys2Proof/Machine/Flags.lean ====
section
/-! DEFINITION. The flag values of 10_state.md R22 and the order in which a flag-writing instruction writes
(41_register_alu.md R150). -/

namespace Sys2Proof.Machine

/-- What `VF` holds for a flag: 1 or 0 (R22). -/
def flagByte (flag : Bool) : Byte := if flag then 1#8 else 0#8

/-- Carry: the unsigned sum exceeds 255 (R157). -/
def carry (a b : Byte) : Bool := decide (a.toNat + b.toNat > 255)

/-- Not-borrow of `a - b`: the minuend is at least the subtrahend (R158, R160). -/
def noBorrow (a b : Byte) : Bool := decide (a.toNat ≥ b.toNat)

/-- The bit a shift right loses (R159). -/
def lowBit (a : Byte) : Bool := a.getLsbD 0

/-- The bit a shift left loses (R161). -/
def highBit (a : Byte) : Bool := a.getLsbD 7

/-- `VF <- flag`. -/
def State.setFlag (s : State) (flag : Bool) : State := s.setReg regF (flagByte flag)

/-- The result register first, `VF` last (R150, R163; D8, log 8): with `X` = 15 the flag is what stays. -/
def State.setResultThenFlag (s : State) (x : Nibble) (result : Byte) (flag : Bool) : State :=
  (s.setReg x result).setFlag flag

end Sys2Proof.Machine
end

