-- ==== Sys2Proof/Machine/Operands.lean ====
section
/-! DEFINITION. The operand forms: immediates and addresses (30_encoding.md R93), the shift operand (41_register_alu.md
R159), the key index (44_input_and_timers.md R197), the font address, the decimal digits, the random byte. -/

namespace Sys2Proof.Machine

/-- `zext_16(NNN)` (R93). -/
def addrWord (nnn : Addr) : Word := nnn.setWidth 16

/-- `zext_16` of a byte (R139, R171, R172). -/
def byteWord (b : Byte) : Word := b.setWidth 16

/-- The value a shift reads: `V[X]` or `V[Y]` by `SHIFT_SRC` (R159, R161; D7, log 7). -/
def State.shiftOperand (s : State) (x y : Nibble) : Byte :=
  match s.params.shiftSrc with
  | .x => s.reg x
  | .y => s.reg y

/-- The key `SKP` and `SKNP` look at: `V[X][3:0]` (R197; D11, log 11). -/
def State.keyIndex (s : State) (x : Nibble) : Nibble := (s.reg x).extractLsb' 0 4

/-- `keys[k]` (R32). -/
def State.key (s : State) (k : Nibble) : Bool := s.keys[k.toNat]'k.isLt

/-- The indices of the pressed keys, lowest first: the scan of all 16 keys of R192. -/
def State.pressedKeys (s : State) : List Nibble :=
  ((List.range 16).map (BitVec.ofNat 4)).filter fun k => s.key k

/-- The key `LD Vx, K` reports, if any is pressed, by `KEYWAIT_PICK` (R192; D26, log 22). -/
def State.reportedKey (s : State) : Option Nibble :=
  match s.params.keywaitPick with
  | .highest => s.pressedKeys.getLast?
  | .lowest => s.pressedKeys.head?

/-- The address of a digit's glyph, `FONT_BASE + digit * 5` with `FONT_BASE` = 0, on the whole byte
(R172; D10, log 10). -/
def glyphAddress (digit : Byte) : Word := byteWord digit * 5#16

/-- Hundreds, tens and ones of a byte (R201). -/
def decimalDigits (b : Byte) : List Byte :=
  [BitVec.ofNat 8 (b.toNat / 100), BitVec.ofNat 8 (b.toNat / 10 % 10), BitVec.ofNat 8 (b.toNat % 10)]

/-- The address `I` gives the block transfers and the sprite (R181, R200): no displacement, no wrap. -/
abbrev State.blockAddress (s : State) : Nat := s.i.toNat

/-- The random byte of this step (R38, R174): the oldest byte an outside agent has supplied; when none
is waiting, a free byte, fresh at every draw (D15, log 15). -/
def State.randomByte (s : State) : Byte :=
  match s.rndInput with
  | b :: _ => b
  | [] => Config.freeByte s.rndDraws

/-- The state once that byte is consumed. -/
def State.consumeRandom (s : State) : State :=
  match s.rndInput with
  | _ :: rest => { s with rndInput := rest }
  | [] => { s with rndDraws := s.rndDraws + 1 }

end Sys2Proof.Machine
end

