-- ==== Sys2Proof/Machine/Alu.lean ====
section
/-! DEFINITION. Register loads and the 8-bit ALU (41_register_alu.md R150 to R163). Results wrap modulo 256 (R150). -/

namespace Sys2Proof.Machine

/-- `LD Vx, kk` (R151). -/
def execLdImm (x : Nibble) (kk : Byte) (s : State) : Result := .next (s.setReg x kk)

/-- `ADD Vx, kk` (R152): no flag. -/
def execAddImm (x : Nibble) (kk : Byte) (s : State) : Result := .next (s.setReg x (s.reg x + kk))

/-- `LD Vx, Vy` (R153). -/
def execLdReg (x y : Nibble) (s : State) : Result := .next (s.setReg x (s.reg y))

/-- `OR Vx, Vy` (R154): `VF` is not written (D9, log 9). -/
def execOrReg (x y : Nibble) (s : State) : Result := .next (s.setReg x (s.reg x ||| s.reg y))

/-- `AND Vx, Vy` (R155): `VF` is not written (D9, log 9). -/
def execAndReg (x y : Nibble) (s : State) : Result := .next (s.setReg x (s.reg x &&& s.reg y))

/-- `XOR Vx, Vy` (R156): `VF` is not written (D9, log 9). -/
def execXorReg (x y : Nibble) (s : State) : Result := .next (s.setReg x (s.reg x ^^^ s.reg y))

/-- `ADD Vx, Vy` (R157). -/
def execAddReg (x y : Nibble) (s : State) : Result :=
  .next (s.setResultThenFlag x (s.reg x + s.reg y) (carry (s.reg x) (s.reg y)))

/-- `SUB Vx, Vy` (R158). -/
def execSubReg (x y : Nibble) (s : State) : Result :=
  .next (s.setResultThenFlag x (s.reg x - s.reg y) (noBorrow (s.reg x) (s.reg y)))

/-- `SHR Vx (, Vy)` (R159): a logical shift. -/
def execShr (x y : Nibble) (s : State) : Result :=
  .next (s.setResultThenFlag x (s.shiftOperand x y >>> 1) (lowBit (s.shiftOperand x y)))

/-- `SUBN Vx, Vy` (R160): the minuend is `V[Y]`. -/
def execSubnReg (x y : Nibble) (s : State) : Result :=
  .next (s.setResultThenFlag x (s.reg y - s.reg x) (noBorrow (s.reg y) (s.reg x)))

/-- `SHL Vx (, Vy)` (R161). -/
def execShl (x y : Nibble) (s : State) : Result :=
  .next (s.setResultThenFlag x (s.shiftOperand x y <<< 1) (highBit (s.shiftOperand x y)))

/-- `NOP.8` (R162). -/
def execNop8 (_x _y _n : Nibble) (s : State) : Result := .next s

end Sys2Proof.Machine
end

