-- ==== Sys2Proof/Machine/Block.lean ====
section
/-! DEFINITION. The block transfers (45_memory_block.md R200 to R204). One check on the whole range before anything
moves; `I` is never written. -/

namespace Sys2Proof.Machine

/-- `LD B, Vx` (R201). -/
def execLdB (x : Nibble) (s : State) : Result :=
  memWrite s.blockAddress (decimalDigits (s.reg x)) s

/-- `LD [I], Vx` (R202): `V[0]` to `V[X]`, the field itself the last index. -/
def execLdMemVx (x : Nibble) (s : State) : Result :=
  memWrite s.blockAddress (s.regs (x.toNat + 1)) s

/-- `LD Vx, [I]` (R203). -/
def execLdVxMem (x : Nibble) (s : State) : Result :=
  memRead s.blockAddress (x.toNat + 1) s fun bytes => .next (State.setRegs 0x0#4 bytes s)

end Sys2Proof.Machine
end

