-- ==== Sys2Proof/Machine/ControlFlow.lean ====
section
/-! DEFINITION. The control-flow instructions (40_control_flow.md R130 to R140). Every handler runs with `pc` already
advanced by the fetch (R9). -/

namespace Sys2Proof.Machine

/-- `SYS nnn` (R131): a no-op (R100; D3, log 3). -/
def execSys (_nnn : Addr) (s : State) : Result := .next s

/-- `RET` (R132). -/
def execRet (_ign : Nibble) (s : State) : Result := popAndJump s

/-- `JP nnn` (R133). -/
def execJp (nnn : Addr) (s : State) : Result := .next (s.jumpTo (addrWord nnn))

/-- `CALL nnn` (R134). -/
def execCall (nnn : Addr) (s : State) : Result := pushAndJump (addrWord nnn) s

/-- `SE Vx, kk` (R135). -/
def execSeImm (x : Nibble) (kk : Byte) (s : State) : Result := .next (s.skipIf (s.reg x == kk))

/-- `SNE Vx, kk` (R136). -/
def execSneImm (x : Nibble) (kk : Byte) (s : State) : Result := .next (s.skipIf (s.reg x != kk))

/-- `SE Vx, Vy` (R137); the low nibble is ignored (D4, log 4). -/
def execSeReg (x y _ign : Nibble) (s : State) : Result := .next (s.skipIf (s.reg x == s.reg y))

/-- `SNE Vx, Vy` (R138); the low nibble is ignored (D4, log 4). -/
def execSneReg (x y _ign : Nibble) (s : State) : Result := .next (s.skipIf (s.reg x != s.reg y))

/-- `JP V0, nnn` (R139): the 16-bit sum, not reduced to 12 bits (D28, log 20). -/
def execJpV0 (nnn : Addr) (s : State) : Result :=
  .next (s.jumpTo (addrWord nnn + byteWord (s.reg 0x0#4)))

end Sys2Proof.Machine
end

