-- ==== Sys2Proof/Machine/Draw.lean ====
section
/-! DEFINITION. The display instructions (43_display.md R180 to R184). -/

namespace Sys2Proof.Machine

/-- Where a sprite pixel at column `x`, row `y` lands (R181, R182): past the right or bottom edge it is
dropped under `clip` and comes back modulo the size under `wrap` (D12, log 12). -/
def landing (edge : DrawEdge) (x y : Nat) : Option (Fin 64 × Fin 32) :=
  if h : x < 64 ∧ y < 32 then some (⟨x, h.1⟩, ⟨y, h.2⟩)
  else
    match edge with
    | .clip => none
    | .wrap => some (Fin.ofNat 64 x, Fin.ofNat 32 y)

/-- One set sprite bit (R181): a pixel that was 1 is a hit, and the pixel is XORed with 1. -/
def plot (edge : DrawEdge) (x y : Nat) (acc : Display × Bool) : Display × Bool :=
  match landing edge x y with
  | none => acc
  | some (px, py) => (Display.toggle acc.1 px py, acc.2 || Display.pixel acc.1 px py)

/-- One row of a sprite, leftmost column first; column c is bit 7 - c (R180; D13, log 13); only set
bits act. -/
def drawRow (edge : DrawEdge) (x0 y : Nat) (row : Byte) (acc : Display × Bool) : Display × Bool :=
  (List.range 8).foldl
    (fun acc c => if row.getLsbD (7 - c) then plot edge (x0 + c) y acc else acc) acc

/-- The rows of a sprite, top row first (R181). -/
def drawRows (edge : DrawEdge) (x0 : Nat) : Nat → List Byte → Display × Bool → Display × Bool
  | _, [], acc => acc
  | y, row :: rows, acc => drawRows edge x0 (y + 1) rows (drawRow edge x0 y row acc)

/-- `DRW Vx, Vy, n` (R181): the whole sprite is read first, so an error leaves the display, `VF` and
`redraw` as they were (D14, log 14); `VF` is written last (D8, log 8); `redraw` is set whether or not a
pixel changed (R184). -/
def execDrw (x y n : Nibble) (s : State) : Result :=
  memRead s.blockAddress n.toNat s fun rows =>
    let drawn := drawRows s.params.drawEdge ((s.reg x).toNat % 64) ((s.reg y).toNat % 32) rows
      (s.disp, false)
    .next { s.setFlag drawn.2 with disp := drawn.1, redraw := true }

/-- `CLS` (R183): `VF` is not written; `redraw` is set always. -/
def execCls (_ign : Nibble) (s : State) : Result :=
  .next { s with disp := Display.blank, redraw := true }

end Sys2Proof.Machine
end

