-- ==== Sys2Proof/Machine/Index.lean ====
section
/-! DEFINITION. The index register and the random byte (42_index_and_random.md R170 to R174). -/

namespace Sys2Proof.Machine

/-- `LD I, nnn` (R170). -/
def execLdI (nnn : Addr) (s : State) : Result := .next { s with i := addrWord nnn }

/-- `ADD I, Vx` (R171): modulo 65536, not reduced to 12 bits (D6, log 6); no flag. -/
def execAddI (x : Nibble) (s : State) : Result := .next { s with i := s.i + byteWord (s.reg x) }

/-- `LD F, Vx` (R172). -/
def execLdF (x : Nibble) (s : State) : Result := .next { s with i := glyphAddress (s.reg x) }

/-- `RND Vx, kk` (R173): the random byte of this step AND the mask. -/
def execRnd (x : Nibble) (kk : Byte) (s : State) : Result :=
  .next (s.consumeRandom.setReg x (s.randomByte &&& kk))

end Sys2Proof.Machine
end

