-- ==== Sys2Proof/Machine/InputTimers.lean ====
section
/-! DEFINITION. Keys and timers (44_input_and_timers.md R190 to R198). -/

namespace Sys2Proof.Machine

/-- `SKP Vx` (R190). -/
def execSkp (x : Nibble) (s : State) : Result := .next (s.skipIf (s.key (s.keyIndex x)))

/-- `SKNP Vx` (R191). -/
def execSknp (x : Nibble) (s : State) : Result := .next (s.skipIf (!s.key (s.keyIndex x)))

/-- `NOP.E` (R196). -/
def execNopE (_x : Nibble) (_nn : Byte) (s : State) : Result := .next s

/-- `LD Vx, DT` (R193). -/
def execLdVxDT (x : Nibble) (s : State) : Result := .next (s.setReg x s.dt)

/-- `LD Vx, K` (R192): with no key pressed `pc` goes back to this instruction and the step succeeds;
otherwise the index of the reported key is written. -/
def execLdVxK (x : Nibble) (s : State) : Result :=
  match s.reportedKey with
  | none => .next s.rewind
  | some k => .next (s.setReg x (k.setWidth 8))

/-- `LD DT, Vx` (R194). -/
def execLdDTVx (x : Nibble) (s : State) : Result := .next { s with dt := s.reg x }

/-- `LD ST, Vx` (R195). -/
def execLdSTVx (x : Nibble) (s : State) : Result := .next { s with st := s.reg x }

/-- `NOP.F` (R196). -/
def execNopF (_x : Nibble) (_nn : Byte) (s : State) : Result := .next s

end Sys2Proof.Machine
end

