-- ==== Sys2Proof/Machine/Fetch.lean ====
section
/-! DEFINITION. The fetch unit (20_memory.md R65 to R68). -/

namespace Sys2Proof.Machine

/-- The word at `pc`: `mem[pc]` is its high byte (R65, R68). -/
def fetchedWord (s : State) : Word :=
  wordOfBytes (s.mem.read s.pc.toNat) (s.mem.read (s.pc.toNat + 1))

/-- The fetch (R65, R66): parity first, then bounds (D5, log 5); a failed fetch changes nothing (R67); a
good one hands the word and the advanced state to the handler. -/
def fetchThen (s : State) (handler : Word → State → Result) : Result :=
  if s.pc.getLsbD 0 then raise .invalidAddress s
  else if inBounds s.pc.toNat 2 then handler (fetchedWord s) s.advance
  else raise .memoryOutOfBounds s

/-- The bytes of an instruction written where the next fetch reads. A `pc` that no fetch accepts has no
such place, and the state stays as it is. -/
def storeAtPc (w : Word) (s : State) : State :=
  if inBounds s.pc.toNat 2 then { s with mem := s.mem.writeBytes s.pc.toNat (bytesOfWord w) } else s

end Sys2Proof.Machine
end

