-- ==== Sys2Proof/Machine/Step.lean ====
section
/-! DEFINITION. The cycle driver (30_encoding.md R104): fetch, dispatch, one instruction. -/

namespace Sys2Proof.Machine

/-- One step (R104, R105). -/
def step (s : State) : Host.Outcome State Fault Refusal :=
  fetchThen s fun w s' => exec (decodeWord w) s'

/-- `s` with an instruction, numbered as spec/opcode_table.json numbers it, stored where `step` fetches
next (log 19). -/
def State.withFetchWord (s : State) (nbits w : Nat) : State := storeAtPc (tableWord nbits w) s

end Sys2Proof.Machine
end

