-- ==== Sys2Proof/Machine/Ports.lean ====
section
/-! DEFINITION. What the agents outside the core do to the state, strictly between steps (10_state.md R36 to R42;
20_memory.md R76; 60_exceptions.md R224; 70_reset_and_hazards.md R255). `step` never does any of it (log 18). -/

namespace Sys2Proof.Machine

/-- A timer tick of one counter: down by one, never below 0 (R224). -/
def tickDown (t : Byte) : Byte := if t = 0#8 then 0#8 else t - 1#8

/-- `tick_timers` (R224). -/
def tickTimers (s : State) : State := { s with dt := tickDown s.dt, st := tickDown s.st }

/-- The input collaborator writes all 16 keys (R37). -/
def refreshKeys (keys : Vector Bool 16) (s : State) : State := { s with keys := keys }

/-- The renderer clears the redraw flag (R40). -/
def clearRedraw (s : State) : State := { s with redraw := false }

/-- An outside agent supplies the byte of a coming RND (R38, R174; log 15). -/
def supplyRandom (b : Byte) (s : State) : State := { s with rndInput := s.rndInput ++ [b] }

/-- What the audio collaborator sees of the sound timer: zero or not (R29, R41). -/
def soundOn (s : State) : Bool := s.st != 0#8

/-- The loader (R42): byte k of the image to `mem[0x200 + k]`; an image over 3584 bytes is rejected
(D27, log 23). -/
def loadImage (image : List Byte) (s : State) : Option State :=
  if image.length ≤ Config.maxImage then
    some { s with mem := s.mem.writeBytes Config.loadAddr image }
  else none

/-- Reset under any configuration (R6, R44, R240): the parameters as configured and `FONT` at `FONT_BASE`;
all else as in `State.reset`, which is the default configuration's reset (log 32). -/
def State.resetWith (c : Configuration) : State :=
  { State.reset with
    params := c.params
    mem := Memory.writeBytes [] Config.fontBase c.font.toList }

/-- The order of initialisation (R244): reset, then the image; steps follow. -/
def boot (c : Configuration) (image : List Byte) : Option State := loadImage image (State.resetWith c)

/-- The indivisible actions of a run (R76). -/
inductive HostAction where
  | step
  | tick
  | keys (k : Vector Bool 16)
  | renderer
  | random (b : Byte)
  deriving DecidableEq, Repr

/-- One action (R76). -/
def perform : HostAction → State → Result
  | .step, s => Machine.step s
  | .tick, s => .next (tickTimers s)
  | .keys k, s => .next (refreshKeys k s)
  | .renderer, s => .next (clearRedraw s)
  | .random b, s => .next (supplyRandom b s)

/-- A schedule of actions, ending at the first error (R76, R231). -/
def runActions : List HostAction → State → Result
  | [], s => .next s
  | a :: rest, s =>
    match perform a s with
    | .next s' => runActions rest s'
    | .fault f => .fault f
    | .refused r => .refused r

end Sys2Proof.Machine
end

