-- ==== Sys2Proof/Safety.lean ====
section
/-! DEFINITION. The words the claims are made in: what a step leaves alone, the invariants of 10_state.md R34, R35 and
70_reset_and_hazards.md R256, when a handler completes (60_exceptions.md R212), a safe run, the normal end of a run (R254). -/

namespace Sys2Proof.Machine

/-! ### Frames -/

/-- The parts of the Machine State (R20), with the model's own fields. -/
inductive Part where
  | regs | index | pc | sp | stack | mem | dt | st | disp | redraw | keys | params | random
  deriving DecidableEq, Repr

/-- A part reads the same in two states; memory and display are compared byte by byte and pixel by pixel. -/
def Part.same : Part → State → State → Prop
  | .regs, s, t => ∀ r, t.reg r = s.reg r
  | .index, s, t => t.i = s.i
  | .pc, s, t => t.pc = s.pc
  | .sp, s, t => t.sp = s.sp
  | .stack, s, t => ∀ k, t.stackAt k = s.stackAt k
  | .mem, s, t => ∀ a, t.mem.read a = s.mem.read a
  | .dt, s, t => t.dt = s.dt
  | .st, s, t => t.st = s.st
  | .disp, s, t => ∀ x y, t.pixel x y = s.pixel x y
  | .redraw, s, t => t.redraw = s.redraw
  | .keys, s, t => ∀ k, t.key k = s.key k
  | .params, s, t => t.params = s.params
  | .random, s, t => t.rndInput = s.rndInput ∧ t.rndDraws = s.rndDraws

/-- Every part outside `changed` is the same. -/
def SameBut (changed : List Part) (s t : State) : Prop := ∀ p, p ∉ changed → p.same s t

end Sys2Proof.Machine

namespace Sys2Proof

open Machine

/-- The general registers an instruction may write: its destination and, for the six instructions of
R22, `VF`; for the register-range load, `V0` to `VX` (R203). -/
def Instr.mayWriteReg : Instr → Nibble → Bool
  | .ldImm x _, r | .addImm x _, r | .ldReg x _, r | .orReg x _, r | .andReg x _, r
  | .xorReg x _, r | .rnd x _, r | .ldVxDT x, r | .ldVxK x, r => r == x
  | .addReg x _, r | .subReg x _, r | .subnReg x _, r | .shr x _, r | .shl x _, r => r == x || r == regF
  | .drw _ _ _, r => r == regF
  | .ldVxMem x, r => decide (r.toNat ≤ x.toNat)
  | .cls _, _ | .ret _, _ | .sys _, _ | .jp _, _ | .call _, _ | .seImm _ _, _ | .sneImm _ _, _
  | .seReg _ _ _, _ | .nop8 _ _ _, _ | .sneReg _ _ _, _ | .ldI _, _ | .jpV0 _, _ | .skp _, _ | .sknp _, _
  | .nopE _ _, _ | .ldDTVx _, _ | .ldSTVx _, _ | .addI _, _ | .ldF _, _ | .ldB _, _ | .ldMemVx _, _
  | .nopF _ _, _ => false

/-- The parts an instruction may write beside the general registers (R23, R24, R25, R28 to R31, R70). -/
def Instr.mayWrite : Instr → List Part
  | .cls _ => [.disp, .redraw]
  | .ret _ => [.pc, .sp]
  | .call _ => [.pc, .sp, .stack]
  | .jp _ | .jpV0 _ | .seImm _ _ | .sneImm _ _ | .seReg _ _ _ | .sneReg _ _ _ | .skp _ | .sknp _ => [.pc]
  | .ldVxK _ => [.pc]
  | .ldI _ | .addI _ | .ldF _ => [.index]
  | .rnd _ _ => [.random]
  | .drw _ _ _ => [.disp, .redraw]
  | .ldDTVx _ => [.dt]
  | .ldSTVx _ => [.st]
  | .ldB _ | .ldMemVx _ => [.mem]
  | .sys _ | .ldImm _ _ | .addImm _ _ | .ldReg _ _ | .orReg _ _ | .andReg _ _ | .xorReg _ _
  | .addReg _ _ | .subReg _ _ | .shr _ _ | .subnReg _ _ | .shl _ _ | .nop8 _ _ _ | .nopE _ _
  | .ldVxDT _ | .ldVxMem _ | .nopF _ _ => []

/-- How many bytes at `I` an instruction reads or writes, if it accesses memory at all (R70). -/
def Instr.blockLength : Instr → Option Nat
  | .drw _ _ n => some n.toNat
  | .ldB _ => some 3
  | .ldMemVx x => some (x.toNat + 1)
  | .ldVxMem x => some (x.toNat + 1)
  | .cls _ | .ret _ | .sys _ | .jp _ | .call _ | .seImm _ _ | .sneImm _ _ | .seReg _ _ _ | .ldImm _ _
  | .addImm _ _ | .ldReg _ _ | .orReg _ _ | .andReg _ _ | .xorReg _ _ | .addReg _ _ | .subReg _ _
  | .shr _ _ | .subnReg _ _ | .shl _ _ | .nop8 _ _ _ | .sneReg _ _ _ | .ldI _ | .jpV0 _ | .rnd _ _
  | .skp _ | .sknp _ | .nopE _ _ | .ldVxDT _ | .ldVxK _ | .ldDTVx _ | .ldSTVx _ | .addI _ | .ldF _
  | .nopF _ _ => none

/-- A `CALL`. -/
def Instr.isCall (i : Instr) : Prop := ∃ nnn, i = .call nnn

/-- A `RET`. -/
def Instr.isRet (i : Instr) : Prop := ∃ ign, i = .ret ign

end Sys2Proof

namespace Sys2Proof.Machine

/-! ### Invariants -/

/-- What every step keeps in every state: memory in its canonical form, and `SP` in 0 .. 16 (R25, R34 (b)). -/
def State.Inv (s : State) : Prop := s.mem.wf = true ∧ s.sp.toNat ≤ 16

/-- The reachable ranges (R35): `pc` at most 0x10FE, and every return address on the stack even, at least
2 and at most 4096. -/
def State.InRange (s : State) : Prop :=
  s.pc.toNat ≤ 0x10FE ∧ s.sp.toNat ≤ 16 ∧
    ∀ k w, k < s.sp.toNat → s.stackAt k = some w → w.toNat % 2 = 0 ∧ 2 ≤ w.toNat ∧ w.toNat ≤ 4096

/-! ### Stores and fetches -/

/-- The byte at `a` once `stored` stands at `I` over the memory of `s`. -/
def State.overlaid (s : State) (stored : List Byte) (a : Nat) : Byte :=
  if s.i.toNat ≤ a then (stored[a - s.i.toNat]?).getD (s.mem.read a) else s.mem.read a

/-! ### Completion and runs -/

/-- The fetch succeeds (R65). -/
def State.fetchable (s : State) : Prop := s.pc.toNat % 2 = 0 ∧ s.pc.toNat + 2 ≤ 4096

/-- The instruction the next step runs. -/
def State.current (s : State) : Instr := decodeWord (fetchedWord s)

/-- The part of the display a sprite pixel lands on (R181, R182): past an edge nothing under `clip`, the
pixel modulo 64 and 32 under `wrap`. -/
def LandsOn (edge : DrawEdge) (x y : Nat) (px : Fin 64) (py : Fin 32) : Prop :=
  match edge with
  | .clip => x = px.val ∧ y = py.val
  | .wrap => x % 64 = px.val ∧ y % 32 = py.val

/-- `DRW Vx, Vy, n` in state `s` has a set sprite bit that lands on the pixel (R181). -/
def SpriteCovers (s : State) (x y n : Nibble) (px : Fin 64) (py : Fin 32) : Prop :=
  ∃ r c, r < n.toNat ∧ c < 8 ∧ (s.mem.read (s.i.toNat + r)).getLsbD (7 - c) = true ∧
    LandsOn s.params.drawEdge ((s.reg x).toNat % 64 + c) ((s.reg y).toNat % 32 + r) px py

/-- Calls one inside the other: each handler runs on the state the one before it left (R134). -/
def nestCalls : List Addr → State → Result
  | [], s => .next s
  | target :: rest, s =>
    match exec (.call target) s with
    | .next s' => nestCalls rest s'
    | .fault f => .fault f
    | .refused r => .refused r

/-- The normal end of a run (R254, D20, log 29): the word at `pc` is a `JP` to `pc` itself. -/
def State.atSelfJump (s : State) : Prop :=
  s.fetchable ∧ fetchedWord s = 0x1000#16 + s.pc

/-- A schedule of actions that meets no error (R253). -/
def SafeRun (actions : List HostAction) (s : State) : Prop := ∃ t, runActions actions s = .next t

/-- Two answers agree on everything outside `hidden`. -/
def AgreeBut (hidden : List Part) : Result → Result → Prop
  | .next t, .next t' => SameBut hidden t t'
  | .fault f, .fault f' => f.kind = f'.kind ∧ SameBut hidden f.after f'.after
  | .refused r, .refused r' => r = r'
  | .next _, .fault _ | .next _, .refused _ | .fault _, .next _ | .fault _, .refused _
  | .refused _, .next _ | .refused _, .fault _ => False

end Sys2Proof.Machine
end

