-- ==== Sys2Proof/Certificates/Slice0/Obligations.lean ====
section
/-! DEFINITION. The statements for the provers, from the numbered rules of spec/. A statement whose docstring names a
decision D<n> or a log entry rests on it: there the spec marks the point as its own choice or as general knowledge. -/

open Sys2Proof Sys2Proof.Machine

/-! ### Encoding (30_encoding.md) -/

/-- Words written out from the table of R106 decode to the instructions they stand for: the three words of
the source (0x00E0, 0x7056, 0xF033), the field example of 95_test_vectors.md 2.1 and one word of each other
family, read as big-endian bytes. The other patterns are D1 (log 1). -/
def Obligations.KnownWordsDecode : Prop :=
  decodeBytes [0x00#8, 0xE0#8] = .ok (.cls 0x0#4, []) ∧
  decodeBytes [0x70#8, 0x56#8] = .ok (.addImm 0x0#4 0x56#8, []) ∧
  decodeBytes [0xF0#8, 0x33#8] = .ok (.ldB 0x0#4, []) ∧
  decodeBytes [0x12#8, 0x34#8] = .ok (.jp 0x234#12, []) ∧
  decodeBytes [0x81#8, 0x24#8] = .ok (.addReg 0x1#4 0x2#4, []) ∧
  decodeBytes [0xA2#8, 0xF0#8] = .ok (.ldI 0x2F0#12, []) ∧
  decodeBytes [0xD7#8, 0xA5#8] = .ok (.drw 0x7#4 0xA#4 0x5#4, []) ∧
  decodeBytes [0xE4#8, 0x9E#8] = .ok (.skp 0x4#4, []) ∧
  decodeBytes [0xF5#8, 0x15#8] = .ok (.ldDTVx 0x5#4, []) ∧
  decodeBytes [0x81#8, 0x2F#8] = .ok (.nop8 0x1#4 0x2#4 0xF#4, []) ∧
  decodeBytes [0x12#8] = .error .truncated

/-- Decoding the encoding of any well-formed instruction gives it back, as a word and as bytes with
anything after them (R106 with R91, R92, R68; D1, D2, D4; that an instruction keeps the bits it ignores, so that
they come back too, is the model's choice, log 28). -/
def Obligations.DecodeEncodeRoundTrip : Prop :=
  ∀ (i : Instr) (rest : List Byte), i.wellFormed = true →
    decodeWord (encode i) = i ∧ decodeBytes (encodeBytes i ++ rest) = .ok (i, rest)

/-- Every word decodes to a well-formed instruction, so that no word is refused (R102; D1, D2, D4), and the
encoding of that instruction is the word: no bit is lost. The second half is the model's choice, log 28: Instr
keeps the bits an instruction ignores, which no rule asks for. -/
def Obligations.EncodeDecodeRoundTrip : Prop :=
  ∀ w : Word, (decodeWord w).wellFormed = true ∧ encode (decodeWord w) = w

/-- The two-level dispatch of R94 to R99 reads every word as the mask and match table of R106 does in its
priority order (D1, D2, D4). -/
def Obligations.TableAgreesWithDispatch : Prop :=
  ∀ w : Word, tableMnemonic w = some (decodeWord w).mnemonic

/-! ### Fetch and the cycle driver (20_memory.md, 30_encoding.md) -/

/-- A step runs the instruction whose bytes stand at `pc`, on the state with `pc` advanced by 2 (R104, R65,
R66, R9). -/
def Obligations.StepRunsDecodedInstruction : Prop :=
  ∀ (s : State) (i : Instr), i.wellFormed = true → s.pc.toNat % 2 = 0 → s.pc.toNat + 2 ≤ 4096 →
    [s.mem.read s.pc.toNat, s.mem.read (s.pc.toNat + 1)] = encodeBytes i →
    step s = exec i { s with pc := s.pc + 2#16 }

/-- A fetch at an odd `pc` raises InvalidAddress, whatever its range, a fetch at an even `pc` of 4096 or
more raises MemoryOutOfBounds, and both leave the state as it was (R65, R67; the order and the unchanged
state are D5, log 5). -/
def Obligations.FetchErrorsChangeNothing : Prop :=
  ∀ s : State,
    (s.pc.toNat % 2 = 1 → step s = .fault (.invalidAddress s)) ∧
    (s.pc.toNat % 2 = 0 → 4096 ≤ s.pc.toNat → step s = .fault (.memoryOutOfBounds s))

/-- The host's word placed for the next fetch is the one the next step runs, and nothing but its two bytes
is touched (log 19). -/
def Obligations.PlacedWordRunsNext : Prop :=
  ∀ (s : State) (w : Nat), s.fetchable →
    let placed := s.withFetchWord 16 w
    step placed = exec (decodeWord (BitVec.ofNat 16 w)) { placed with pc := s.pc + 2#16 } ∧
    SameBut [.mem] s placed ∧
    ∀ a, a < s.pc.toNat ∨ s.pc.toNat + 2 ≤ a → placed.mem.read a = s.mem.read a

/-! ### Memory (20_memory.md) -/

/-- `MemRead(addr, n)`: MemoryOutOfBounds when `addr + n > 4096`, else the n bytes `mem[addr + k]`, lowest
address first, in an unchanged state (R61, R62). -/
def Obligations.MemReadReturnsBytesInOrder : Prop :=
  ∀ (s : State) (addr n : Nat) (body : List Byte → Result),
    (4096 < addr + n → memRead addr n s body = .fault (.memoryOutOfBounds s)) ∧
    (addr + n ≤ 4096 → ∃ bytes : List Byte, memRead addr n s body = body bytes ∧ bytes.length = n ∧
      ∀ k, k < n → bytes[k]? = some (s.mem.read (addr + k)))

/-- `MemWrite(addr, n, b)`: MemoryOutOfBounds and no byte written when `addr + n > 4096`, else `mem[addr + k]`
is `b[k]` and only the n addressed bytes change (R63). -/
def Obligations.MemWriteChangesOnlyItsBytes : Prop :=
  ∀ (s : State) (addr : Nat) (b : List Byte),
    (4096 < addr + b.length → memWrite addr b s = .fault (.memoryOutOfBounds s)) ∧
    (addr + b.length ≤ 4096 → ∃ t, memWrite addr b s = .next t ∧ SameBut [.mem] s t ∧
      (∀ k, k < b.length → some (t.mem.read (addr + k)) = b[k]?) ∧
      ∀ a, a < addr ∨ addr + b.length ≤ a → t.mem.read a = s.mem.read a)

/-- Memories in canonical form that read alike at every address are equal data (log 27). -/
def Obligations.CanonicalMemoriesAreEqualWhenTheyReadAlike : Prop :=
  ∀ m m' : Memory, m.wf = true → m'.wf = true → (∀ a, m.read a = m'.read a) → m = m'

/-- A store is seen by the very next fetch: after a step that ran LD [I], Vx or LD B, Vx, the next step runs
the word at `pc` with the stored bytes laid over the old memory, whichever of its two bytes the store covers:
both, one or none (R78 with R68, R201, R202; the spec derives R78). -/
def Obligations.StoreIsSeenByTheNextFetch : Prop :=
  ∀ (s t : State) (x : Nibble) (stored : List Byte),
    s.pc.toNat % 2 = 0 → s.pc.toNat + 4 ≤ 4096 → step s = .next t →
    ((s.current = .ldMemVx x ∧ stored.length = x.toNat + 1 ∧
        ∀ k : Nibble, k.toNat ≤ x.toNat → stored[k.toNat]? = some (s.reg k)) ∨
      (s.current = .ldB x ∧ stored.map BitVec.toNat =
        [(s.reg x).toNat / 100, (s.reg x).toNat / 10 % 10, (s.reg x).toNat % 10])) →
    t.pc.toNat = s.pc.toNat + 2 ∧
    step t = exec (decodeWord (wordOfBytes (s.overlaid stored (s.pc.toNat + 2))
      (s.overlaid stored (s.pc.toNat + 3)))) { t with pc := s.pc + 4#16 }

/-! ### Invariants and whole-machine rules -/

/-- Every step keeps memory in its canonical form and `SP` in 0 .. 16 (R34 (b); log 27). -/
def Obligations.InvariantIsKeptByEveryStep : Prop :=
  ∀ s t : State, s.Inv → step s = .next t → t.Inv

/-- Every step keeps the reachable ranges: `pc` at most 0x10FE, `SP` at most 16, every return address on the
stack even and between 2 and 4096 (R35, which the spec derives; R24). -/
def Obligations.ReachableRangesAreKeptByEveryStep : Prop :=
  ∀ s t : State, s.InRange → step s = .next t → t.InRange

/-- Both invariants hold right after reset under every configuration (R44, R6), and after the loader has
written any image it accepts (R42, R244; which images it accepts is D27, log 23). The canonical form of memory,
half of `State.Inv`, is the model's choice, log 27; that a configuration carries FONT to the reset is log 32. -/
def Obligations.InvariantsHoldAfterBoot : Prop :=
  ∀ c : Configuration, (State.resetWith c).Inv ∧ (State.resetWith c).InRange ∧
    ∀ (image : List Byte) (s : State), boot c image = some s → s.Inv ∧ s.InRange

/-- Every schedule of steps, ticks, key writes, redraw clears and random bytes keeps both invariants
(R76, R255; the schedules are D18, log 18; the canonical form of memory, half of `State.Inv`, is the model's
choice, log 27). -/
def Obligations.InvariantsAreKeptByEverySchedule : Prop :=
  ∀ (actions : List HostAction) (s t : State), s.Inv → s.InRange →
    runActions actions s = .next t → t.Inv ∧ t.InRange

/-- What a handler writes: an instruction that completes changes no general register but those R22 and its
own rule name, and no other part of the state but those its rule names (R21 to R32, R70, R200; the empty
effect of OR, AND, XOR on `VF` is D9). -/
def Obligations.HandlersWriteOnlyTheirParts : Prop :=
  ∀ (i : Instr) (s t : State), exec i s = .next t →
    (∀ r, i.mayWriteReg r = false → t.reg r = s.reg r) ∧
    SameBut (.regs :: i.mayWrite) s t

/-- The key state and the parameters are never written by a step, whatever it runs and however it ends
(R32, R34 (g); the parameters are the model's own field, log 24). -/
def Obligations.KeysAreReadOnlyForTheCore : Prop :=
  ∀ s : State,
    (∀ t, step s = .next t → t.keys = s.keys ∧ t.params = s.params) ∧
    (∀ f, step s = .fault f → f.after.keys = s.keys ∧ f.after.params = s.params)

/-- The timers change in a step only by LD DT and LD ST, which write `V[X]`; no step counts them down
(R105, R198, R28, R29). -/
def Obligations.TimersChangeOnlyByTheirInstructions : Prop :=
  ∀ s t : State, step s = .next t →
    (t.dt = s.dt ∨ ∃ x, s.current = .ldDTVx x ∧ t.dt = s.reg x) ∧
    (t.st = s.st ∨ ∃ x, s.current = .ldSTVx x ∧ t.st = s.reg x)

/-- The redraw flag and the display: set by every DRW and CLS that completes, not by one that raises; no
step writes 0 to the flag, and no other instruction writes the display or the flag (R184). That a DRW that
raises leaves the display is R181's D14 (log 14), that a failed fetch leaves both is R67's D5 (log 5). -/
def Obligations.RedrawFlagIsSetByDrawAndClearOnly : Prop :=
  ∀ s : State,
    (∀ t, step s = .next t →
      (((∃ x y n, s.current = .drw x y n) ∨ ∃ ign, s.current = .cls ign) → t.redraw = true) ∧
      (¬((∃ x y n, s.current = .drw x y n) ∨ ∃ ign, s.current = .cls ign) →
        t.redraw = s.redraw ∧ ∀ px py, t.pixel px py = s.pixel px py)) ∧
    (∀ f, step s = .fault f →
      f.after.redraw = s.redraw ∧ ∀ px py, f.after.pixel px py = s.pixel px py)

/-- Only CALL and RET write the stack pointer, and only CALL writes a stack entry, the one at the old `SP`
(R25, R26; that RET keeps the entry is D22). -/
def Obligations.StackChangesOnlyByCallAndReturn : Prop :=
  ∀ s t : State, step s = .next t →
    (¬ s.current.isCall → ¬ s.current.isRet → t.sp = s.sp) ∧
    (∀ k, (¬ s.current.isCall ∨ k ≠ s.sp.toNat) → t.stackAt k = s.stackAt k)

/-- Memory changes in a step only by LD B and LD [I], and then only inside the addressed bytes
`I .. I + length - 1` (R70, R200). -/
def Obligations.MemoryChangesOnlyByBlockStores : Prop :=
  ∀ s t : State, step s = .next t →
    ∀ a, t.mem.read a ≠ s.mem.read a →
      (∃ x, s.current = .ldB x ∧ s.i.toNat ≤ a ∧ a < s.i.toNat + 3) ∨
      (∃ x, s.current = .ldMemVx x ∧ s.i.toNat ≤ a ∧ a < s.i.toNat + x.toNat + 1)

/-- No instruction reads the sound timer or the redraw flag: two states that differ only there step alike
and end alike outside them (R29, R31). -/
def Obligations.SoundTimerAndRedrawAreNeverRead : Prop :=
  ∀ (s : State) (sound : Byte) (flag : Bool),
    AgreeBut [.st, .redraw] (step s) (step { s with st := sound, redraw := flag })

/-! ### Errors (60_exceptions.md) -/

/-- The state an error carries: after a fetch error the state itself, after a handler error the state with
`pc` advanced by 2 and nothing else changed (R214, which the spec derives; R67, R213; the unchanged state after a
fetch error is D5, log 5, the check of DRW before its writes D14, log 14). -/
def Obligations.ErrorsCarryTheStateOfTheRule : Prop :=
  ∀ (s : State) (f : Fault), step s = .fault f →
    (¬ s.fetchable ∧ f.after = s) ∨ (s.fetchable ∧ f.after = { s with pc := s.pc + 2#16 })

/-- Which status a step reports, and exactly when (R212, R215, R65, R100; code numbers D17, parity first
D5): 3 at an odd `pc`; 4 at an even `pc` of 4096 or more, or when DRW, LD B, LD [I] or LD Vx,[I] passes 4096;
5 at CALL with `SP` of 16 or more; 6 at RET with `SP` 0; none at RET with `SP` above 16 (log 21); 0, success,
in every other case (CALL above 16 is D22, log 21, the check of DRW at N = 0 D14, log 14). -/
def Obligations.StatusIsExactlyTheTableOfCauses : Prop :=
  ∀ s : State,
    (statusCode (step s) = some 3 ↔ s.pc.toNat % 2 = 1) ∧
    (statusCode (step s) = some 4 ↔ s.pc.toNat % 2 = 0 ∧
      (4096 ≤ s.pc.toNat ∨
        (s.fetchable ∧ ∃ len, s.current.blockLength = some len ∧ 4096 < s.i.toNat + len))) ∧
    (statusCode (step s) = some 5 ↔ s.fetchable ∧ s.current.isCall ∧ 16 ≤ s.sp.toNat) ∧
    (statusCode (step s) = some 6 ↔ s.fetchable ∧ s.current.isRet ∧ s.sp.toNat = 0) ∧
    (statusCode (step s) = none ↔ s.fetchable ∧ s.current.isRet ∧ 16 < s.sp.toNat) ∧
    (statusCode (step s) = some 0 ↔ ∃ t, step s = .next t)

/-- With `SP` in 0 .. 16 every fetchable word of the 65536 runs or raises one of the handlers' three errors:
none is refused, none is illegal (R102, which the spec derives; R100, R212; that DRW checks before it writes is
D14, log 14). -/
def Obligations.EveryWordRunsOrRaisesItsError : Prop :=
  ∀ (w : Word) (s : State), s.sp.toNat ≤ 16 →
    (∃ t, exec (decodeWord w) s = .next t) ∨
    exec (decodeWord w) s = .fault (.memoryOutOfBounds s) ∨
    exec (decodeWord w) s = .fault (.stackOverflow s) ∨
    exec (decodeWord w) s = .fault (.stackUnderflow s)

/-! ### Control flow (40_control_flow.md) -/

/-- SYS and the reserved words of families 8, E and F complete and change nothing beyond the fetch's advance;
stated of the handlers, and of a step at a word of families 0, 8, E or F whose key is in no table (R100, R131,
R162, R196; the tables are D1 and D2, SYS as an instruction D3). -/
def Obligations.UnmappedWordsAreNoOps : Prop :=
  (∀ s : State,
    (∀ nnn, exec (.sys nnn) s = .next s) ∧ (∀ x y n, exec (.nop8 x y n) s = .next s) ∧
    (∀ x nn, exec (.nopE x nn) s = .next s) ∧ (∀ x nn, exec (.nopF x nn) s = .next s)) ∧
  ∀ s : State, s.fetchable →
    ((fieldOP (fetchedWord s) = 0x0#4 ∧ fieldNN (fetchedWord s) ∉ [0xE0#8, 0xEE#8]) ∨
     (fieldOP (fetchedWord s) = 0x8#4 ∧
       fieldN (fetchedWord s) ∈ [0x8#4, 0x9#4, 0xA#4, 0xB#4, 0xC#4, 0xD#4, 0xF#4]) ∨
     (fieldOP (fetchedWord s) = 0xE#4 ∧ fieldNN (fetchedWord s) ∉ [0x9E#8, 0xA1#8]) ∨
     (fieldOP (fetchedWord s) = 0xF#4 ∧ fieldNN (fetchedWord s) ∉
       [0x07#8, 0x0A#8, 0x15#8, 0x18#8, 0x1E#8, 0x29#8, 0x33#8, 0x55#8, 0x65#8])) →
    step s = .next { s with pc := s.pc + 2#16 }

/-- RET: StackUnderflow at `SP` = 0; for `SP` in 1 .. 16 it completes with `SP` down by one, `pc` the entry at
the new `SP`, and nothing else changed, the entry included (D22); with `SP` above 16 the form is refused by
name (R132, R256; log 21). -/
def Obligations.ReturnPopsTheTopEntry : Prop :=
  ∀ (s : State) (ign : Nibble),
    (s.sp.toNat = 0 → exec (.ret ign) s = .fault (.stackUnderflow s)) ∧
    (1 ≤ s.sp.toNat → s.sp.toNat ≤ 16 → ∃ t, exec (.ret ign) s = .next t ∧
      t.sp.toNat = s.sp.toNat - 1 ∧ s.stackAt (s.sp.toNat - 1) = some t.pc ∧ SameBut [.pc, .sp] s t) ∧
    (16 < s.sp.toNat → exec (.ret ign) s = .refused .stackPointerAboveSixteen)

/-- CALL: for `SP` below 16 it completes with the advanced `pc` in the entry at the old `SP`, `SP` up by one,
`pc` the target, and nothing else changed; StackOverflow, with nothing changed, from 16 on (R134; the test
above 16 is D22, that the entry is the one at the old `SP` is derived in R26). -/
def Obligations.CallPushesTheReturnAddress : Prop :=
  ∀ (s : State) (nnn : Addr),
    (s.sp.toNat < 16 → ∃ t, exec (.call nnn) s = .next t ∧
      t.stackAt s.sp.toNat = some s.pc ∧ t.sp.toNat = s.sp.toNat + 1 ∧ t.pc.toNat = nnn.toNat ∧
      (∀ k, k ≠ s.sp.toNat → t.stackAt k = s.stackAt k) ∧ SameBut [.pc, .sp, .stack] s t) ∧
    (16 ≤ s.sp.toNat → exec (.call nnn) s = .fault (.stackOverflow s))

/-- The matching RET resumes at the instruction after the CALL: from any state with the stack a CALL left,
RET completes with `pc` the address the CALL pushed and `SP` as it was before the CALL (R134, R132; D22). -/
def Obligations.ReturnResumesAfterTheCall : Prop :=
  ∀ (s t u : State) (nnn : Addr) (ign : Nibble), exec (.call nnn) s = .next t →
    u.sp = t.sp → (∀ k, u.stackAt k = t.stackAt k) →
    ∃ w, exec (.ret ign) u = .next w ∧ w.pc = s.pc ∧ w.sp = s.sp

/-- "Exactly 16 nested calls succeed; the 17th call fails with StackOverflow" (R134): from an empty stack,
calls one inside the other complete with `SP` their number as long as there are at most 16, and 17 end in
StackOverflow with `SP` at 16. -/
def Obligations.SixteenNestedCallsSucceed : Prop :=
  ∀ (s : State) (targets : List Addr), s.sp.toNat = 0 →
    (targets.length ≤ 16 → ∃ t, nestCalls targets s = .next t ∧ t.sp.toNat = targets.length) ∧
    (targets.length = 17 → ∃ t, nestCalls targets s = .fault (.stackOverflow t) ∧ t.sp.toNat = 16)

/-- JP completes with `pc` the target, JP V0 with `pc` the whole sum `NNN + V0`, neither checked nor reduced
to 12 bits (R133, R139; D28), and nothing else changed. -/
def Obligations.JumpsWriteTheTarget : Prop :=
  ∀ (s : State) (nnn : Addr),
    (∃ t, exec (.jp nnn) s = .next t ∧ t.pc.toNat = nnn.toNat ∧ SameBut [.pc] s t) ∧
    (∃ t, exec (.jpV0 nnn) s = .next t ∧ t.pc.toNat = nnn.toNat + (s.reg 0x0#4).toNat ∧
      SameBut [.pc] s t)

/-- A JP to its own address leaves the whole state as it was: the normal end of a run is a fixed point of
the step (R254, R133; the definition of the end is D20, log 29). -/
def Obligations.SelfJumpIsAFixedPoint : Prop :=
  ∀ s : State, s.atSelfJump → step s = .next s

/-- The four skips complete; each advances `pc` by an extra 2 exactly when its comparison holds, and changes
nothing else (R135 to R138, R130; the ignored nibble of the register forms is D4, the sum modulo 65536 D6). -/
def Obligations.SkipsCompareOnce : Prop :=
  ∀ (s : State) (x y ign : Nibble) (kk : Byte),
    (∃ t, exec (.seImm x kk) s = .next t ∧ SameBut [.pc] s t ∧
      t.pc.toNat = if s.reg x = kk then (s.pc.toNat + 2) % 65536 else s.pc.toNat) ∧
    (∃ t, exec (.sneImm x kk) s = .next t ∧ SameBut [.pc] s t ∧
      t.pc.toNat = if s.reg x ≠ kk then (s.pc.toNat + 2) % 65536 else s.pc.toNat) ∧
    (∃ t, exec (.seReg x y ign) s = .next t ∧ SameBut [.pc] s t ∧
      t.pc.toNat = if s.reg x = s.reg y then (s.pc.toNat + 2) % 65536 else s.pc.toNat) ∧
    (∃ t, exec (.sneReg x y ign) s = .next t ∧ SameBut [.pc] s t ∧
      t.pc.toNat = if s.reg x ≠ s.reg y then (s.pc.toNat + 2) % 65536 else s.pc.toNat)

/-! ### Register loads and the ALU (41_register_alu.md) -/

/-- LD and the three logic operations complete with the result in `V[X]`, bit by bit, and no other register,
`VF` included, nor anything else changed (R151, R153 to R156; that the logic operations leave `VF` is D9). -/
def Obligations.MovesAndLogicWriteOneRegister : Prop :=
  ∀ (s : State) (x y : Nibble) (kk : Byte),
    (∃ t, exec (.ldImm x kk) s = .next t ∧ t.reg x = kk ∧
      (∀ r, r ≠ x → t.reg r = s.reg r) ∧ SameBut [.regs] s t) ∧
    (∃ t, exec (.ldReg x y) s = .next t ∧ t.reg x = s.reg y ∧
      (∀ r, r ≠ x → t.reg r = s.reg r) ∧ SameBut [.regs] s t) ∧
    (∃ t, exec (.orReg x y) s = .next t ∧
      (∀ b, b < 8 → (t.reg x).getLsbD b = ((s.reg x).getLsbD b || (s.reg y).getLsbD b)) ∧
      (∀ r, r ≠ x → t.reg r = s.reg r) ∧ SameBut [.regs] s t) ∧
    (∃ t, exec (.andReg x y) s = .next t ∧
      (∀ b, b < 8 → (t.reg x).getLsbD b = ((s.reg x).getLsbD b && (s.reg y).getLsbD b)) ∧
      (∀ r, r ≠ x → t.reg r = s.reg r) ∧ SameBut [.regs] s t) ∧
    (∃ t, exec (.xorReg x y) s = .next t ∧
      (∀ b, b < 8 → (t.reg x).getLsbD b = ((s.reg x).getLsbD b != (s.reg y).getLsbD b)) ∧
      (∀ r, r ≠ x → t.reg r = s.reg r) ∧ SameBut [.regs] s t)

/-- ADD Vx, kk: the words with top nibble 7 are this instruction, with the fields of the source's example; it
completes with `V[X]` the sum modulo 256, and no other register, `VF` included, nor anything else changed
(R152). -/
def Obligations.AddImmediateSetsNoFlag : Prop :=
  (∀ w : Word, w &&& 0xF000#16 = 0x7000#16 → decodeWord w = .addImm (fieldX w) (fieldNN w)) ∧
  ∀ (s : State) (x : Nibble) (kk : Byte), ∃ t, exec (.addImm x kk) s = .next t ∧
    (t.reg x).toNat = ((s.reg x).toNat + kk.toNat) % 256 ∧
    (∀ r, r ≠ x → t.reg r = s.reg r) ∧ SameBut [.regs] s t

/-- ADD Vx, Vy completes: `VF` is 1 exactly when the unsigned sum exceeds 255, `V[X]` is the sum modulo 256
when X is not 15 (with X = 15 the flag stays, D8), and nothing else changes (R157, R163, R150). -/
def Obligations.AddSetsCarry : Prop :=
  ∀ (s : State) (x y : Nibble), ∃ t, exec (.addReg x y) s = .next t ∧
    t.reg 0xF#4 = (if (s.reg x).toNat + (s.reg y).toNat > 255 then 1#8 else 0#8) ∧
    (x ≠ 0xF#4 → (t.reg x).toNat = ((s.reg x).toNat + (s.reg y).toNat) % 256) ∧
    (∀ r, r ≠ x → r ≠ 0xF#4 → t.reg r = s.reg r) ∧ SameBut [.regs] s t

/-- SUB and SUBN complete: `VF` is 1 exactly when the minuend is at least the subtrahend, `V[X]` is the
difference modulo 256 when X is not 15 (D8), and nothing else changes (R158, R160, R163, R150). -/
def Obligations.SubtractSetsNotBorrow : Prop :=
  ∀ (s : State) (x y : Nibble),
    (∃ t, exec (.subReg x y) s = .next t ∧
      t.reg 0xF#4 = (if (s.reg x).toNat ≥ (s.reg y).toNat then 1#8 else 0#8) ∧
      (x ≠ 0xF#4 → (t.reg x).toNat = ((s.reg x).toNat + 256 - (s.reg y).toNat) % 256) ∧
      (∀ r, r ≠ x → r ≠ 0xF#4 → t.reg r = s.reg r) ∧ SameBut [.regs] s t) ∧
    (∃ t, exec (.subnReg x y) s = .next t ∧
      t.reg 0xF#4 = (if (s.reg y).toNat ≥ (s.reg x).toNat then 1#8 else 0#8) ∧
      (x ≠ 0xF#4 → (t.reg x).toNat = ((s.reg y).toNat + 256 - (s.reg x).toNat) % 256) ∧
      (∀ r, r ≠ x → r ≠ 0xF#4 → t.reg r = s.reg r) ∧ SameBut [.regs] s t)

/-- SHR and SHL complete, for both values of SHIFT_SRC (D7, log 7): with a the value of the register the
parameter selects, SHR writes a div 2 and the low bit, SHL writes a * 2 mod 256 and the high bit, `V[X]` when X
is not 15 (D8), `VF` always, and nothing else changes (R159, R161, R163). -/
def Obligations.ShiftsMoveOneBitToTheFlag : Prop :=
  ∀ (s : State) (x y src : Nibble),
    ((s.params.shiftSrc = .x ∧ src = x) ∨ (s.params.shiftSrc = .y ∧ src = y)) →
    (∃ t, exec (.shr x y) s = .next t ∧
      (t.reg 0xF#4).toNat = (s.reg src).toNat % 2 ∧
      (x ≠ 0xF#4 → (t.reg x).toNat = (s.reg src).toNat / 2) ∧
      (∀ r, r ≠ x → r ≠ 0xF#4 → t.reg r = s.reg r) ∧ SameBut [.regs] s t) ∧
    (∃ t, exec (.shl x y) s = .next t ∧
      (t.reg 0xF#4).toNat = (s.reg src).toNat / 128 ∧
      (x ≠ 0xF#4 → (t.reg x).toNat = (s.reg src).toNat * 2 % 256) ∧
      (∀ r, r ≠ x → r ≠ 0xF#4 → t.reg r = s.reg r) ∧ SameBut [.regs] s t)

/-! ### Index register and random byte (42_index_and_random.md) -/

/-- LD I, ADD I and LD F complete with `I` the address, the 16-bit sum (modulo 65536, not 12 bits: D6), or
five times the whole byte (D10), and nothing else changed (R170 to R172, R23). -/
def Obligations.IndexInstructionsWriteI : Prop :=
  ∀ (s : State) (nnn : Addr) (x : Nibble),
    (∃ t, exec (.ldI nnn) s = .next t ∧ t.i.toNat = nnn.toNat ∧ SameBut [.index] s t) ∧
    (∃ t, exec (.addI x) s = .next t ∧ t.i.toNat = (s.i.toNat + (s.reg x).toNat) % 65536 ∧
      SameBut [.index] s t) ∧
    (∃ t, exec (.ldF x) s = .next t ∧ t.i.toNat = (s.reg x).toNat * 5 ∧ SameBut [.index] s t)

/-- RND completes in every state with a byte that holds no bit outside the mask, and every such byte is
possible: the byte an outside agent supplies first is the one ANDed with the mask and it is consumed
(R173, R174, R38; the form of the free byte is D15 and log 15). No other register and nothing but the random
port changes. -/
def Obligations.RandomAllowsEveryByteUnderTheMask : Prop :=
  ∀ (s : State) (x : Nibble) (kk : Byte),
    (∃ t, exec (.rnd x kk) s = .next t ∧ t.reg x &&& ~~~kk = 0#8 ∧
      (∀ r, r ≠ x → t.reg r = s.reg r) ∧ SameBut [.regs, .random] s t) ∧
    (∀ b : Byte, b &&& ~~~kk = 0#8 → ∃ (rnd : Byte) (t : State),
      exec (.rnd x kk) { s with rndInput := rnd :: s.rndInput } = .next t ∧
      t.reg x = b ∧ t.rndInput = s.rndInput ∧ t.rndDraws = s.rndDraws) ∧
    (∀ rnd : Byte, ∃ t, exec (.rnd x kk) { s with rndInput := rnd :: s.rndInput } = .next t ∧
      t.reg x = rnd &&& kk)

/-! ### Display (43_display.md) -/

/-- CLS: the words of family 0 with low byte 0xE0 are this instruction (bits 11 to 8 ignored: D2); it
completes with every pixel 0 and the redraw flag 1, and nothing else changed, `VF` included (R183). -/
def Obligations.ClearScreenZeroesEveryPixel : Prop :=
  (∀ w : Word, w &&& 0xF0FF#16 = 0x00E0#16 → decodeWord w = .cls (fieldX w)) ∧
  ∀ (s : State) (ign : Nibble), ∃ t, exec (.cls ign) s = .next t ∧
    (∀ px py, t.pixel px py = false) ∧ t.redraw = true ∧ SameBut [.disp, .redraw] s t

/-- DRW, for both values of DRAW_EDGE (D12): with the sprite inside memory it completes, a pixel is toggled
exactly when a set sprite bit lands on it, `VF` is 1 exactly when a covered pixel was 1, the redraw flag is 1,
and nothing else changes; otherwise MemoryOutOfBounds with nothing changed (R181, R182, R184, R22; bit 7
leftmost D13, the check first D14; with X or Y = 15 the old `VF` is the coordinate and `VF` is written last, D8,
log 8). -/
def Obligations.DrawXorsTheSprite : Prop :=
  ∀ (s : State) (x y n : Nibble),
    (s.i.toNat + n.toNat ≤ 4096 → ∃ t, exec (.drw x y n) s = .next t ∧
      (∀ px py, (SpriteCovers s x y n px py → t.pixel px py = !s.pixel px py) ∧
        (¬ SpriteCovers s x y n px py → t.pixel px py = s.pixel px py)) ∧
      ((∃ px py, SpriteCovers s x y n px py ∧ s.pixel px py = true) → t.reg 0xF#4 = 1#8) ∧
      ((∀ px py, SpriteCovers s x y n px py → s.pixel px py = false) → t.reg 0xF#4 = 0#8) ∧
      t.redraw = true ∧ (∀ r, r ≠ 0xF#4 → t.reg r = s.reg r) ∧
      SameBut [.regs, .disp, .redraw] s t) ∧
    (4096 < s.i.toNat + n.toNat → exec (.drw x y n) s = .fault (.memoryOutOfBounds s))

/-- Drawing the same sprite twice at the same place restores every pixel, and the second draw's flag is 1
exactly when the first set some pixel (R181 corner (e); X and Y are not 15, so that the flag moves neither
coordinate). -/
def Obligations.DrawingTwiceRestoresTheDisplay : Prop :=
  ∀ (s t u : State) (x y n : Nibble), x ≠ 0xF#4 → y ≠ 0xF#4 →
    exec (.drw x y n) s = .next t → exec (.drw x y n) t = .next u →
    (∀ px py, u.pixel px py = s.pixel px py) ∧
    (u.reg 0xF#4 = 1#8 ↔ ∃ px py, s.pixel px py = false ∧ t.pixel px py = true)

/-! ### Keys and timers (44_input_and_timers.md, 60_exceptions.md) -/

/-- SKP and SKNP complete: with k the low four bits of `V[X]` (D11), SKP skips when key k is pressed and
SKNP when it is not, and nothing else changes (R190, R191, R197; the sum modulo 65536 is D6). -/
def Obligations.KeySkipsTestOneKey : Prop :=
  ∀ (s : State) (x k : Nibble), k.toNat = (s.reg x).toNat % 16 →
    (∃ t, exec (.skp x) s = .next t ∧ SameBut [.pc] s t ∧
      t.pc.toNat = if s.key k then (s.pc.toNat + 2) % 65536 else s.pc.toNat) ∧
    (∃ t, exec (.sknp x) s = .next t ∧ SameBut [.pc] s t ∧
      t.pc.toNat = if s.key k then s.pc.toNat else (s.pc.toNat + 2) % 65536)

/-- LD Vx, K completes in every state: with no key pressed it writes `pc - 2` and nothing else; with some key
pressed `V[X]` is the index of a pressed key, the highest or the lowest as KEYWAIT_PICK says (D26, log 22), and
nothing else changes, `pc` included (R192; the difference modulo 65536 is D6). -/
def Obligations.KeyWaitReportsAPressedKey : Prop :=
  ∀ (s : State) (x : Nibble),
    ((∀ k, s.key k = false) → ∃ t, exec (.ldVxK x) s = .next t ∧ t.pc = s.pc - 2#16 ∧
      SameBut [.pc] s t) ∧
    ((∃ k, s.key k = true) → ∃ (t : State) (k : Nibble), exec (.ldVxK x) s = .next t ∧
      s.key k = true ∧ (t.reg x).toNat = k.toNat ∧
      (s.params.keywaitPick = .highest → ∀ j, s.key j = true → j.toNat ≤ k.toNat) ∧
      (s.params.keywaitPick = .lowest → ∀ j, s.key j = true → k.toNat ≤ j.toNat) ∧
      (∀ r, r ≠ x → t.reg r = s.reg r) ∧ SameBut [.regs] s t)

/-- While no key is pressed a step at LD Vx, K leaves the whole state as it was (R249, R192). -/
def Obligations.KeyWaitIsAFixedPointWithoutKeys : Prop :=
  ∀ (s : State) (x : Nibble), s.fetchable → s.current = .ldVxK x → (∀ k, s.key k = false) →
    step s = .next s

/-- LD Vx, DT, LD DT, Vx and LD ST, Vx complete with the byte moved and nothing else changed (R193 to
R195). -/
def Obligations.TimerInstructionsMoveOneByte : Prop :=
  ∀ (s : State) (x : Nibble),
    (∃ t, exec (.ldVxDT x) s = .next t ∧ t.reg x = s.dt ∧ (∀ r, r ≠ x → t.reg r = s.reg r) ∧
      SameBut [.regs] s t) ∧
    (∃ t, exec (.ldDTVx x) s = .next t ∧ t.dt = s.reg x ∧ SameBut [.dt] s t) ∧
    (∃ t, exec (.ldSTVx x) s = .next t ∧ t.st = s.reg x ∧ SameBut [.st] s t)

/-- `tick_timers`: each timer goes down by one when it is not 0 and stays at 0 otherwise, independently, and
the tick writes nothing else and raises nothing (R224). -/
def Obligations.TickDecrementsNonzeroTimers : Prop :=
  ∀ s : State, ∃ t, perform .tick s = .next t ∧ t.dt.toNat = s.dt.toNat - 1 ∧
    t.st.toNat = s.st.toNat - 1 ∧ SameBut [.dt, .st] s t

/-! ### Block transfers (45_memory_block.md) -/

/-- LD B, Vx: the words of family F with low byte 0x33 are this instruction; with `I + 3 <= 4096` it completes
with hundreds, tens and ones of `V[X]` at `I`, `I+1`, `I+2` and every other byte and all else unchanged, `I`
included; otherwise MemoryOutOfBounds with nothing changed (R201). -/
def Obligations.DecimalDigitsAreStored : Prop :=
  (∀ w : Word, w &&& 0xF0FF#16 = 0xF033#16 → decodeWord w = .ldB (fieldX w)) ∧
  ∀ (s : State) (x : Nibble),
    (s.i.toNat + 3 ≤ 4096 → ∃ t, exec (.ldB x) s = .next t ∧
      (t.mem.read s.i.toNat).toNat = (s.reg x).toNat / 100 ∧
      (t.mem.read (s.i.toNat + 1)).toNat = (s.reg x).toNat / 10 % 10 ∧
      (t.mem.read (s.i.toNat + 2)).toNat = (s.reg x).toNat % 10 ∧
      (∀ a, a < s.i.toNat ∨ s.i.toNat + 3 ≤ a → t.mem.read a = s.mem.read a) ∧ SameBut [.mem] s t) ∧
    (4096 < s.i.toNat + 3 → exec (.ldB x) s = .fault (.memoryOutOfBounds s))

/-- LD [I], Vx: with `I + X + 1 <= 4096` it completes with `mem[I + k] = V[k]` for k in 0 .. X and every other
byte and all else unchanged, `I` included; otherwise MemoryOutOfBounds with nothing changed (R202, R200). -/
def Obligations.RegisterRangeIsStored : Prop :=
  ∀ (s : State) (x : Nibble),
    (s.i.toNat + x.toNat + 1 ≤ 4096 → ∃ t, exec (.ldMemVx x) s = .next t ∧
      (∀ k : Nibble, k.toNat ≤ x.toNat → t.mem.read (s.i.toNat + k.toNat) = s.reg k) ∧
      (∀ a, a < s.i.toNat ∨ s.i.toNat + x.toNat + 1 ≤ a → t.mem.read a = s.mem.read a) ∧
      SameBut [.mem] s t) ∧
    (4096 < s.i.toNat + x.toNat + 1 → exec (.ldMemVx x) s = .fault (.memoryOutOfBounds s))

/-- LD Vx, [I]: with `I + X + 1 <= 4096` it completes with `V[k] = mem[I + k]` for k in 0 .. X, the registers
above X and all else unchanged, `I` and memory included; otherwise MemoryOutOfBounds with nothing changed
(R203, R200). -/
def Obligations.RegisterRangeIsLoaded : Prop :=
  ∀ (s : State) (x : Nibble),
    (s.i.toNat + x.toNat + 1 ≤ 4096 → ∃ t, exec (.ldVxMem x) s = .next t ∧
      (∀ k : Nibble, k.toNat ≤ x.toNat → t.reg k = s.mem.read (s.i.toNat + k.toNat)) ∧
      (∀ k : Nibble, x.toNat < k.toNat → t.reg k = s.reg k) ∧ SameBut [.regs] s t) ∧
    (4096 < s.i.toNat + x.toNat + 1 → exec (.ldVxMem x) s = .fault (.memoryOutOfBounds s))

/-- Load is the inverse of store: from any state with the memory and the `I` a register-range store left,
the load of the same range completes and gives back the registers that were stored (R203, R202). -/
def Obligations.LoadInvertsStore : Prop :=
  ∀ (s t u : State) (x : Nibble), exec (.ldMemVx x) s = .next t →
    u.i = s.i → (∀ a, u.mem.read a = t.mem.read a) →
    ∃ w, exec (.ldVxMem x) u = .next w ∧ ∀ k : Nibble, k.toNat ≤ x.toNat → w.reg k = s.reg k

/-! ### Reset and the image (10_state.md, 70_reset_and_hazards.md) -/

/-- The reset values of R44, under every configuration of R6: registers, `I`, `SP`, stack, timers, display,
redraw flag and keys all zero, `pc` 0x200, the 80 bytes from 0x000 those of the configuration's FONT, every other
byte of the 4096 zero, the parameters as configured. `State.reset` is this state under the default configuration
(R6: D7, D12, D26, D16). That a configuration is an argument of the reset in this form is the model's choice,
log 24 and log 32; keys released at reset is D25, log 31. -/
def Obligations.ResetStateIsTheTable : Prop :=
  (∀ c : Configuration,
    (∀ r, (State.resetWith c).reg r = 0#8) ∧ (State.resetWith c).i = 0#16 ∧
    (State.resetWith c).pc = 0x200#16 ∧ (State.resetWith c).sp = 0#8 ∧
    (∀ k, k < 16 → (State.resetWith c).stackAt k = some 0#16) ∧
    (State.resetWith c).dt = 0#8 ∧ (State.resetWith c).st = 0#8 ∧
    (∀ px py, (State.resetWith c).pixel px py = false) ∧
    (State.resetWith c).redraw = false ∧ (∀ k, (State.resetWith c).key k = false) ∧
    (∀ (a : Nat) (h : a < 80), (State.resetWith c).mem.read a = c.font[a]'h) ∧
    (∀ a, 80 ≤ a → a < 4096 → (State.resetWith c).mem.read a = 0#8) ∧
    (State.resetWith c).params = c.params) ∧
  State.reset = State.resetWith defaultConfiguration ∧
  defaultConfiguration.params =
    { shiftSrc := .x, drawEdge := .clip, keywaitPick := .highest }

/-- The loader, under every configuration: an image of at most 3584 bytes stands byte for byte at 0x200 with
every other byte and all else as at reset, so the first step fetches its first word; a larger one gives no state
(R42, R241, R244; rejection is D27, log 23; the configuration as an argument is log 32). -/
def Obligations.ImageIsLoadedAtTheEntryPoint : Prop :=
  ∀ (c : Configuration) (image : List Byte),
    (image.length ≤ 3584 → ∃ s, boot c image = some s ∧
      (∀ k, k < image.length → image[k]? = some (s.mem.read (0x200 + k))) ∧
      (∀ a, a < 0x200 ∨ 0x200 + image.length ≤ a → s.mem.read a = (State.resetWith c).mem.read a) ∧
      SameBut [.mem] (State.resetWith c) s ∧
      (2 ≤ image.length → step s = exec (decodeWord (wordOfBytes (image[0]?.getD 0#8)
        (image[1]?.getD 0#8))) { s with pc := 0x202#16 })) ∧
    (3584 < image.length → boot c image = none)

/-- The default FONT, byte by byte as the table of R43 lists it: the five rows of digit d stand at 5 * d after
`State.reset`, and LD F with that digit in `V[X]` points `I` at them. The bytes are the spec's general knowledge
(PRESUMED, D16, log 16); the address is R172's. -/
def Obligations.DefaultFontIsTheTable : Prop :=
  ∀ (s : State) (x d : Nibble), s.reg x = d.setWidth 8 → ∃ t, exec (.ldF x) s = .next t ∧
    t.i.toNat = 5 * d.toNat ∧
    State.reset.mem.readBytes t.i.toNat 5 =
      match d with
      | 0x0#4 => [0xF0#8, 0x90#8, 0x90#8, 0x90#8, 0xF0#8]
      | 0x1#4 => [0x20#8, 0x60#8, 0x20#8, 0x20#8, 0x70#8]
      | 0x2#4 => [0xF0#8, 0x10#8, 0xF0#8, 0x80#8, 0xF0#8]
      | 0x3#4 => [0xF0#8, 0x10#8, 0xF0#8, 0x10#8, 0xF0#8]
      | 0x4#4 => [0x90#8, 0x90#8, 0xF0#8, 0x10#8, 0x10#8]
      | 0x5#4 => [0xF0#8, 0x80#8, 0xF0#8, 0x10#8, 0xF0#8]
      | 0x6#4 => [0xF0#8, 0x80#8, 0xF0#8, 0x90#8, 0xF0#8]
      | 0x7#4 => [0xF0#8, 0x10#8, 0x20#8, 0x40#8, 0x40#8]
      | 0x8#4 => [0xF0#8, 0x90#8, 0xF0#8, 0x90#8, 0xF0#8]
      | 0x9#4 => [0xF0#8, 0x90#8, 0xF0#8, 0x10#8, 0xF0#8]
      | 0xA#4 => [0xF0#8, 0x90#8, 0xF0#8, 0x90#8, 0x90#8]
      | 0xB#4 => [0xE0#8, 0x90#8, 0xE0#8, 0x90#8, 0xE0#8]
      | 0xC#4 => [0xF0#8, 0x80#8, 0x80#8, 0x80#8, 0xF0#8]
      | 0xD#4 => [0xE0#8, 0x90#8, 0x90#8, 0x90#8, 0xE0#8]
      | 0xE#4 => [0xF0#8, 0x80#8, 0xF0#8, 0x80#8, 0xF0#8]
      | _ => [0xF0#8, 0x80#8, 0xF0#8, 0x80#8, 0x80#8]
end

