-- ==== Sys2Proof/Laws/Decode.lean ====
section
/-! SUPPORT. Fields of assembled words, and words of fields: what the round trips rest on. -/

namespace Sys2Proof

section
variable (op x y n : Nibble) (nn : Byte) (nnn : Addr)

@[simp] theorem fieldOP_wordXYN : fieldOP (wordXYN op x y n) = op := by
  refine BitVec.eq_of_getElem_eq fun i hi => ?_
  interval_cases i <;> simp [fieldOP, wordXYN]

@[simp] theorem fieldX_wordXYN : fieldX (wordXYN op x y n) = x := by
  refine BitVec.eq_of_getElem_eq fun i hi => ?_
  interval_cases i <;> simp [fieldX, wordXYN]

@[simp] theorem fieldY_wordXYN : fieldY (wordXYN op x y n) = y := by
  refine BitVec.eq_of_getElem_eq fun i hi => ?_
  interval_cases i <;> simp [fieldY, wordXYN]

@[simp] theorem fieldN_wordXYN : fieldN (wordXYN op x y n) = n := by
  refine BitVec.eq_of_getElem_eq fun i hi => ?_
  interval_cases i <;> simp [fieldN, wordXYN]

@[simp] theorem fieldOP_wordXNN : fieldOP (wordXNN op x nn) = op := by
  refine BitVec.eq_of_getElem_eq fun i hi => ?_
  interval_cases i <;> simp [fieldOP, wordXNN]

@[simp] theorem fieldX_wordXNN : fieldX (wordXNN op x nn) = x := by
  refine BitVec.eq_of_getElem_eq fun i hi => ?_
  interval_cases i <;> simp [fieldX, wordXNN]

@[simp] theorem fieldNN_wordXNN : fieldNN (wordXNN op x nn) = nn := by
  refine BitVec.eq_of_getElem_eq fun i hi => ?_
  interval_cases i <;> simp [fieldNN, wordXNN]

@[simp] theorem fieldOP_wordNNN : fieldOP (wordNNN op nnn) = op := by
  refine BitVec.eq_of_getElem_eq fun i hi => ?_
  interval_cases i <;> simp [fieldOP, wordNNN]

@[simp] theorem fieldNNN_wordNNN : fieldNNN (wordNNN op nnn) = nnn := by
  refine BitVec.eq_of_getElem_eq fun i hi => ?_
  interval_cases i <;> simp [fieldNNN, wordNNN]

@[simp] theorem fieldNN_wordNNN : fieldNN (wordNNN op nnn) = nnn.extractLsb' 0 8 := by
  refine BitVec.eq_of_getElem_eq fun i hi => ?_
  interval_cases i <;> simp [fieldNN, wordNNN]

@[simp] theorem fieldX_wordNNN : fieldX (wordNNN op nnn) = nnn.extractLsb' 8 4 := by
  refine BitVec.eq_of_getElem_eq fun i hi => ?_
  interval_cases i <;> simp [fieldX, wordNNN]

end

section
variable (w : Word)

/-- A word is its four nibbles (R91). -/
theorem wordXYN_fields : wordXYN (fieldOP w) (fieldX w) (fieldY w) (fieldN w) = w := by
  refine BitVec.eq_of_getElem_eq fun i hi => ?_
  interval_cases i <;>
    simp [fieldOP, fieldX, fieldY, fieldN, wordXYN]

/-- A word is its top nibble, `X` and `NN` (R91). -/
theorem wordXNN_fields : wordXNN (fieldOP w) (fieldX w) (fieldNN w) = w := by
  refine BitVec.eq_of_getElem_eq fun i hi => ?_
  interval_cases i <;>
    simp [fieldOP, fieldX, fieldNN, wordXNN]

/-- A word is its top nibble and `NNN` (R91). -/
theorem wordNNN_fields : wordNNN (fieldOP w) (fieldNNN w) = w := by
  refine BitVec.eq_of_getElem_eq fun i hi => ?_
  interval_cases i <;>
    simp [fieldOP, fieldNNN, wordNNN]

/-- The low byte of `NNN` is `NN`. -/
theorem fieldNNN_low : (fieldNNN w).extractLsb' 0 8 = fieldNN w := by
  refine BitVec.eq_of_getElem_eq fun i hi => ?_
  interval_cases i <;> simp [fieldNNN, fieldNN]

/-- The two bytes of a word form the word again (R65, R68). -/
@[simp] theorem wordOfBytes_extract :
    wordOfBytes (w.extractLsb' 8 8) (w.extractLsb' 0 8) = w := by
  refine BitVec.eq_of_getElem_eq fun i hi => ?_
  interval_cases i <;>
    simp [wordOfBytes]

/-- Decoding the bytes of a word reads the word and leaves the rest. -/
theorem decodeBytes_bytesOfWord (rest : List Byte) :
    decodeBytes (bytesOfWord w ++ rest) = .ok (decodeWord w, rest) := by
  simp [bytesOfWord, decodeBytes]

end

/-! ### The masks of the opcode table -/

section
variable (w : Word) (op : Nibble)

/-- Mask 0xF000 looks at `OP` alone. -/
theorem mask_op : w &&& 0xF000#16 = wordNNN op 0#12 ↔ fieldOP w = op := by
  constructor
  · intro h
    have := congrArg fieldOP h
    rw [fieldOP_wordNNN] at this
    rw [← this, fieldOP, fieldOP, BitVec.extractLsb'_and]
    exact BitVec.and_allOnes.symm
  · rintro rfl
    refine BitVec.eq_of_getElem_eq fun i hi => ?_
    interval_cases i <;> simp [fieldOP, wordNNN, BitVec.getLsbD_eq_getElem]

/-- Mask 0xF0FF looks at `OP` and `NN`. -/
theorem mask_op_NN (nn : Byte) :
    w &&& 0xF0FF#16 = wordXNN op 0#4 nn ↔ fieldOP w = op ∧ fieldNN w = nn := by
  constructor
  · intro h
    have h1 := congrArg fieldOP h
    have h2 := congrArg fieldNN h
    rw [fieldOP_wordXNN] at h1
    rw [fieldNN_wordXNN] at h2
    rw [← h1, ← h2, fieldOP, fieldOP, fieldNN, fieldNN, BitVec.extractLsb'_and, BitVec.extractLsb'_and]
    exact ⟨BitVec.and_allOnes.symm, BitVec.and_allOnes.symm⟩
  · rintro ⟨rfl, rfl⟩
    refine BitVec.eq_of_getElem_eq fun i hi => ?_
    interval_cases i <;> simp [fieldOP, fieldNN, wordXNN, BitVec.getLsbD_eq_getElem]

/-- Mask 0xF00F looks at `OP` and `N`. -/
theorem mask_op_N (n : Nibble) :
    w &&& 0xF00F#16 = wordXYN op 0#4 0#4 n ↔ fieldOP w = op ∧ fieldN w = n := by
  constructor
  · intro h
    have h1 := congrArg fieldOP h
    have h2 := congrArg fieldN h
    rw [fieldOP_wordXYN] at h1
    rw [fieldN_wordXYN] at h2
    rw [← h1, ← h2, fieldOP, fieldOP, fieldN, fieldN, BitVec.extractLsb'_and, BitVec.extractLsb'_and]
    exact ⟨BitVec.and_allOnes.symm, BitVec.and_allOnes.symm⟩
  · rintro ⟨rfl, rfl⟩
    refine BitVec.eq_of_getElem_eq fun i hi => ?_
    interval_cases i <;> simp [fieldOP, fieldN, wordXYN, BitVec.getLsbD_eq_getElem]

end

end Sys2Proof
end

