-- ==== Sys2Proof/Laws/Memory.lean ====
section
/-! SUPPORT. The laws of memory: read after write, the canonical form, equal reads give equal memories. -/

namespace Sys2Proof.Machine

/-! ### Reads after writes -/

theorem Memory.read_unlist (m : Memory) (a b : Nat) :
    Memory.read (Memory.unlist m a) b = if b = a then resetByte b else Memory.read m b := by
  induction m with
  | nil => simp [Memory.unlist, Memory.read]
  | cons c rest ih =>
    have hu : Memory.unlist (c :: rest) a
        = if c.1 = a then Memory.unlist rest a else c :: Memory.unlist rest a := by
      by_cases h : c.1 = a <;> simp [Memory.unlist, h]
    rw [hu]
    by_cases h : c.1 = a
    · rw [if_pos h, ih]
      by_cases hb : b = a
      · simp [hb]
      · have : c.1 ≠ b := by omega
        simp [hb, Memory.read, this]
    · rw [if_neg h]
      by_cases hc : c.1 = b
      · have : b ≠ a := by omega
        simp [Memory.read, hc, this]
      · simp [Memory.read, hc, ih]

theorem Memory.read_insert (m : Memory) (a b : Nat) (v : Byte) :
    Memory.read (Memory.insert m a v) b = if b = a then v else
      Memory.read (Memory.unlist m a) b := by
  rw [Memory.read_unlist]
  induction m with
  | nil => by_cases h : a = b <;> simp [Memory.insert, Memory.read, h, eq_comm]
  | cons c rest ih =>
    obtain ⟨k, w⟩ := c
    unfold Memory.insert
    split
    · rename_i hk
      by_cases hb : k = b
      · have : b ≠ a := by omega
        simp [Memory.read, hb, this]
      · simp only [Memory.read, hb, if_false, ih]
    · by_cases h : a = b
      · simp [Memory.read, h]
      · have : b ≠ a := fun e => h e.symm
        simp [Memory.read, h, this]

/-- A write changes the byte written and no other (R63, R75). -/
@[simp] theorem Memory.read_write (m : Memory) (a b : Nat) (v : Byte) :
    Memory.read (Memory.write m a v) b = if b = a then v else Memory.read m b := by
  unfold Memory.write
  split
  · rename_i hv
    rw [Memory.read_unlist]
    by_cases h : b = a <;> simp [h, hv]
  · rw [Memory.read_insert, Memory.read_unlist, Memory.read_unlist]
    by_cases h : b = a <;> simp [h]

/-- A block write: the bytes of the block at its addresses, every other byte as before (R63). -/
theorem Memory.read_writeBytes (m : Memory) (a b : Nat) (bs : List Byte) :
    Memory.read (Memory.writeBytes m a bs) b =
      if a ≤ b ∧ b < a + bs.length then (bs[b - a]?).getD 0#8 else Memory.read m b := by
  induction bs generalizing m a with
  | nil => simp [Memory.writeBytes]
  | cons v bs ih =>
    simp only [Memory.writeBytes, ih, Memory.read_write, List.length_cons]
    rcases Nat.lt_trichotomy b a with h | h | h
    · simp [show ¬ a + 1 ≤ b by omega, show ¬ a ≤ b by omega, show b ≠ a by omega]
    · subst h; simp
    · have e : b - a = (b - (a + 1)) + 1 := by omega
      have c : (a + 1 ≤ b ∧ b < a + 1 + bs.length) ↔ (a ≤ b ∧ b < a + (bs.length + 1)) := by omega
      by_cases hc : a + 1 ≤ b ∧ b < a + 1 + bs.length
      · rw [if_pos hc, if_pos (c.mp hc), e, List.getElem?_cons_succ]
      · rw [if_neg hc, if_neg (fun h' => hc (c.mpr h')), if_neg (by omega)]

/-- Outside its block a write leaves every byte as it was. -/
theorem Memory.read_writeBytes_outside {m : Memory} {a b : Nat} {bs : List Byte}
    (h : b < a ∨ a + bs.length ≤ b) :
    Memory.read (Memory.writeBytes m a bs) b = Memory.read m b := by
  rw [Memory.read_writeBytes, if_neg (by omega)]

@[simp] theorem Memory.length_readBytes (m : Memory) (a n : Nat) :
    (Memory.readBytes m a n).length = n := by simp [Memory.readBytes]

/-- Byte `k` of a block read (R62). -/
theorem Memory.getElem?_readBytes (m : Memory) (a n k : Nat) :
    (Memory.readBytes m a n)[k]? = if k < n then some (Memory.read m (a + k)) else none := by
  by_cases h : k < n <;> simp [Memory.readBytes, h]

/-! ### The canonical form -/

theorem Memory.wf_cons (a : Nat) (b : Byte) (rest : Memory) :
    Memory.wf ((a, b) :: rest) = true ↔
      a < 4096 ∧ b ≠ resetByte a ∧ (∀ c ∈ rest, a < c.1) ∧ Memory.wf rest = true := by
  simp [Memory.wf, List.all_eq_true, and_assoc]

theorem Memory.wf_unlist {m : Memory} (a : Nat) (h : Memory.wf m = true) :
    Memory.wf (Memory.unlist m a) = true := by
  induction m with
  | nil => exact h
  | cons c rest ih =>
    obtain ⟨k, w⟩ := c
    obtain ⟨hk, hw, hr, hrest⟩ := (Memory.wf_cons ..).mp h
    by_cases hka : k = a
    · simpa [Memory.unlist, hka] using ih hrest
    · have : Memory.unlist ((k, w) :: rest) a = (k, w) :: Memory.unlist rest a := by
        simp [Memory.unlist, hka]
      rw [this, Memory.wf_cons]
      exact ⟨hk, hw, fun c hc => hr c (List.mem_filter.mp hc).1, ih hrest⟩

theorem Memory.mem_insert {m : Memory} {a : Nat} {b : Byte} {c : Host.Cell}
    (h : c ∈ Memory.insert m a b) : c = (a, b) ∨ c ∈ m := by
  induction m with
  | nil => simpa [Memory.insert] using h
  | cons d rest ih =>
    obtain ⟨k, w⟩ := d
    unfold Memory.insert at h
    split at h
    · rcases List.mem_cons.mp h with h | h
      · exact .inr (by simp [h])
      · rcases ih h with h | h
        · exact .inl h
        · exact .inr (by simp [h])
    · rcases List.mem_cons.mp h with h | h
      · exact .inl h
      · exact .inr h

theorem Memory.wf_insert {m : Memory} {a : Nat} {b : Byte} (h : Memory.wf m = true)
    (ha : a < 4096) (hb : b ≠ resetByte a) (hm : ∀ c ∈ m, c.1 ≠ a) :
    Memory.wf (Memory.insert m a b) = true := by
  induction m with
  | nil => simp [Memory.insert, Memory.wf, hb, ha]
  | cons c rest ih =>
    obtain ⟨k, w⟩ := c
    obtain ⟨hk, hw, hr, hrest⟩ := (Memory.wf_cons ..).mp h
    have hka : k ≠ a := hm (k, w) (by simp)
    unfold Memory.insert
    split
    · rename_i hlt
      refine (Memory.wf_cons ..).mpr ⟨hk, hw, fun c hc => ?_, ih hrest fun c hc => hm c (by simp [hc])⟩
      rcases Memory.mem_insert hc with hc | hc
      · simpa [hc] using hlt
      · exact hr c hc
    · refine (Memory.wf_cons ..).mpr ⟨ha, hb, fun c hc => ?_, h⟩
      rcases List.mem_cons.mp hc with hc | hc
      · simp [hc]; omega
      · have := hr c hc; omega

/-- A write inside the address space keeps the canonical form. -/
theorem Memory.wf_write {m : Memory} {a : Nat} (b : Byte) (h : Memory.wf m = true) (ha : a < 4096) :
    Memory.wf (Memory.write m a b) = true := by
  unfold Memory.write
  split
  · exact Memory.wf_unlist a h
  · rename_i hb
    refine Memory.wf_insert (Memory.wf_unlist a h) ha hb fun c hc => ?_
    simpa using (List.mem_filter.mp hc).2

/-- A block write inside the address space keeps the canonical form. -/
theorem Memory.wf_writeBytes {m : Memory} {a : Nat} (bs : List Byte) (h : Memory.wf m = true)
    (ha : a + bs.length ≤ 4096) : Memory.wf (Memory.writeBytes m a bs) = true := by
  induction bs generalizing m a with
  | nil => exact h
  | cons b bs ih =>
    simp only [List.length_cons] at ha
    exact ih (Memory.wf_write b h (by omega)) (by omega)

end Sys2Proof.Machine
end

