-- ==== Sys2Proof/Laws/State.lean ====
section
/-! SUPPORT. One lemma per field per update of `State`: the fields an update leaves alone, and the ones it writes. -/

namespace Sys2Proof.Machine

section
variable (s : State) (x : Nibble) (b : Byte)

@[simp] theorem setReg_i : (s.setReg x b).i = s.i := rfl
@[simp] theorem setReg_pc : (s.setReg x b).pc = s.pc := rfl
@[simp] theorem setReg_sp : (s.setReg x b).sp = s.sp := rfl
@[simp] theorem setReg_stack : (s.setReg x b).stack = s.stack := rfl
@[simp] theorem setReg_mem : (s.setReg x b).mem = s.mem := rfl
@[simp] theorem setReg_dt : (s.setReg x b).dt = s.dt := rfl
@[simp] theorem setReg_st : (s.setReg x b).st = s.st := rfl
@[simp] theorem setReg_disp : (s.setReg x b).disp = s.disp := rfl
@[simp] theorem setReg_redraw : (s.setReg x b).redraw = s.redraw := rfl
@[simp] theorem setReg_keys : (s.setReg x b).keys = s.keys := rfl
@[simp] theorem setReg_params : (s.setReg x b).params = s.params := rfl
@[simp] theorem setReg_rndInput : (s.setReg x b).rndInput = s.rndInput := rfl
@[simp] theorem setReg_rndDraws : (s.setReg x b).rndDraws = s.rndDraws := rfl

end

section
variable (s : State) (f : Bool)

@[simp] theorem setFlag_i : (s.setFlag f).i = s.i := rfl
@[simp] theorem setFlag_pc : (s.setFlag f).pc = s.pc := rfl
@[simp] theorem setFlag_sp : (s.setFlag f).sp = s.sp := rfl
@[simp] theorem setFlag_stack : (s.setFlag f).stack = s.stack := rfl
@[simp] theorem setFlag_mem : (s.setFlag f).mem = s.mem := rfl
@[simp] theorem setFlag_dt : (s.setFlag f).dt = s.dt := rfl
@[simp] theorem setFlag_st : (s.setFlag f).st = s.st := rfl
@[simp] theorem setFlag_disp : (s.setFlag f).disp = s.disp := rfl
@[simp] theorem setFlag_redraw : (s.setFlag f).redraw = s.redraw := rfl
@[simp] theorem setFlag_keys : (s.setFlag f).keys = s.keys := rfl
@[simp] theorem setFlag_params : (s.setFlag f).params = s.params := rfl
@[simp] theorem setFlag_rndInput : (s.setFlag f).rndInput = s.rndInput := rfl
@[simp] theorem setFlag_rndDraws : (s.setFlag f).rndDraws = s.rndDraws := rfl

end

section
variable (s : State) (x : Nibble) (b : Byte) (f : Bool)

@[simp] theorem setResultThenFlag_i : (s.setResultThenFlag x b f).i = s.i := rfl
@[simp] theorem setResultThenFlag_pc : (s.setResultThenFlag x b f).pc = s.pc := rfl
@[simp] theorem setResultThenFlag_sp : (s.setResultThenFlag x b f).sp = s.sp := rfl
@[simp] theorem setResultThenFlag_stack : (s.setResultThenFlag x b f).stack = s.stack := rfl
@[simp] theorem setResultThenFlag_mem : (s.setResultThenFlag x b f).mem = s.mem := rfl
@[simp] theorem setResultThenFlag_dt : (s.setResultThenFlag x b f).dt = s.dt := rfl
@[simp] theorem setResultThenFlag_st : (s.setResultThenFlag x b f).st = s.st := rfl
@[simp] theorem setResultThenFlag_disp : (s.setResultThenFlag x b f).disp = s.disp := rfl
@[simp] theorem setResultThenFlag_redraw : (s.setResultThenFlag x b f).redraw = s.redraw := rfl
@[simp] theorem setResultThenFlag_keys : (s.setResultThenFlag x b f).keys = s.keys := rfl
@[simp] theorem setResultThenFlag_params : (s.setResultThenFlag x b f).params = s.params := rfl
@[simp] theorem setResultThenFlag_rndInput : (s.setResultThenFlag x b f).rndInput = s.rndInput := rfl
@[simp] theorem setResultThenFlag_rndDraws : (s.setResultThenFlag x b f).rndDraws = s.rndDraws := rfl

end

section
variable (s : State)

@[simp] theorem advance_v : (s.advance).v = s.v := rfl
@[simp] theorem advance_i : (s.advance).i = s.i := rfl
@[simp] theorem advance_sp : (s.advance).sp = s.sp := rfl
@[simp] theorem advance_stack : (s.advance).stack = s.stack := rfl
@[simp] theorem advance_mem : (s.advance).mem = s.mem := rfl
@[simp] theorem advance_dt : (s.advance).dt = s.dt := rfl
@[simp] theorem advance_st : (s.advance).st = s.st := rfl
@[simp] theorem advance_disp : (s.advance).disp = s.disp := rfl
@[simp] theorem advance_redraw : (s.advance).redraw = s.redraw := rfl
@[simp] theorem advance_keys : (s.advance).keys = s.keys := rfl
@[simp] theorem advance_params : (s.advance).params = s.params := rfl
@[simp] theorem advance_rndInput : (s.advance).rndInput = s.rndInput := rfl
@[simp] theorem advance_rndDraws : (s.advance).rndDraws = s.rndDraws := rfl
@[simp] theorem advance_pc : (s.advance).pc = s.pc + 2#16 := rfl

end

section
variable (s : State)

@[simp] theorem rewind_v : (s.rewind).v = s.v := rfl
@[simp] theorem rewind_i : (s.rewind).i = s.i := rfl
@[simp] theorem rewind_sp : (s.rewind).sp = s.sp := rfl
@[simp] theorem rewind_stack : (s.rewind).stack = s.stack := rfl
@[simp] theorem rewind_mem : (s.rewind).mem = s.mem := rfl
@[simp] theorem rewind_dt : (s.rewind).dt = s.dt := rfl
@[simp] theorem rewind_st : (s.rewind).st = s.st := rfl
@[simp] theorem rewind_disp : (s.rewind).disp = s.disp := rfl
@[simp] theorem rewind_redraw : (s.rewind).redraw = s.redraw := rfl
@[simp] theorem rewind_keys : (s.rewind).keys = s.keys := rfl
@[simp] theorem rewind_params : (s.rewind).params = s.params := rfl
@[simp] theorem rewind_rndInput : (s.rewind).rndInput = s.rndInput := rfl
@[simp] theorem rewind_rndDraws : (s.rewind).rndDraws = s.rndDraws := rfl
@[simp] theorem rewind_pc : (s.rewind).pc = s.pc - 2#16 := rfl

end

section
variable (s : State) (w : Word)

@[simp] theorem jumpTo_v : (s.jumpTo w).v = s.v := rfl
@[simp] theorem jumpTo_i : (s.jumpTo w).i = s.i := rfl
@[simp] theorem jumpTo_sp : (s.jumpTo w).sp = s.sp := rfl
@[simp] theorem jumpTo_stack : (s.jumpTo w).stack = s.stack := rfl
@[simp] theorem jumpTo_mem : (s.jumpTo w).mem = s.mem := rfl
@[simp] theorem jumpTo_dt : (s.jumpTo w).dt = s.dt := rfl
@[simp] theorem jumpTo_st : (s.jumpTo w).st = s.st := rfl
@[simp] theorem jumpTo_disp : (s.jumpTo w).disp = s.disp := rfl
@[simp] theorem jumpTo_redraw : (s.jumpTo w).redraw = s.redraw := rfl
@[simp] theorem jumpTo_keys : (s.jumpTo w).keys = s.keys := rfl
@[simp] theorem jumpTo_params : (s.jumpTo w).params = s.params := rfl
@[simp] theorem jumpTo_rndInput : (s.jumpTo w).rndInput = s.rndInput := rfl
@[simp] theorem jumpTo_rndDraws : (s.jumpTo w).rndDraws = s.rndDraws := rfl
@[simp] theorem jumpTo_pc : (s.jumpTo w).pc = w := rfl

end

section
variable (s : State) (c : Bool)

@[simp] theorem skipIf_v : (s.skipIf c).v = s.v := by cases c <;> rfl
@[simp] theorem skipIf_i : (s.skipIf c).i = s.i := by cases c <;> rfl
@[simp] theorem skipIf_sp : (s.skipIf c).sp = s.sp := by cases c <;> rfl
@[simp] theorem skipIf_stack : (s.skipIf c).stack = s.stack := by cases c <;> rfl
@[simp] theorem skipIf_mem : (s.skipIf c).mem = s.mem := by cases c <;> rfl
@[simp] theorem skipIf_dt : (s.skipIf c).dt = s.dt := by cases c <;> rfl
@[simp] theorem skipIf_st : (s.skipIf c).st = s.st := by cases c <;> rfl
@[simp] theorem skipIf_disp : (s.skipIf c).disp = s.disp := by cases c <;> rfl
@[simp] theorem skipIf_redraw : (s.skipIf c).redraw = s.redraw := by cases c <;> rfl
@[simp] theorem skipIf_keys : (s.skipIf c).keys = s.keys := by cases c <;> rfl
@[simp] theorem skipIf_params : (s.skipIf c).params = s.params := by cases c <;> rfl
@[simp] theorem skipIf_rndInput : (s.skipIf c).rndInput = s.rndInput := by cases c <;> rfl
@[simp] theorem skipIf_rndDraws : (s.skipIf c).rndDraws = s.rndDraws := by cases c <;> rfl
@[simp] theorem skipIf_pc : (s.skipIf c).pc = if c then s.pc + 2#16 else s.pc := by cases c <;> rfl

end

section
variable (s : State)

@[simp] theorem consumeRandom_v : (s.consumeRandom).v = s.v := by unfold State.consumeRandom; split <;> rfl
@[simp] theorem consumeRandom_i : (s.consumeRandom).i = s.i := by unfold State.consumeRandom; split <;> rfl
@[simp] theorem consumeRandom_pc : (s.consumeRandom).pc = s.pc := by unfold State.consumeRandom; split <;> rfl
@[simp] theorem consumeRandom_sp : (s.consumeRandom).sp = s.sp := by unfold State.consumeRandom; split <;> rfl
@[simp] theorem consumeRandom_stack : (s.consumeRandom).stack = s.stack := by unfold State.consumeRandom; split <;> rfl
@[simp] theorem consumeRandom_mem : (s.consumeRandom).mem = s.mem := by unfold State.consumeRandom; split <;> rfl
@[simp] theorem consumeRandom_dt : (s.consumeRandom).dt = s.dt := by unfold State.consumeRandom; split <;> rfl
@[simp] theorem consumeRandom_st : (s.consumeRandom).st = s.st := by unfold State.consumeRandom; split <;> rfl
@[simp] theorem consumeRandom_disp : (s.consumeRandom).disp = s.disp := by unfold State.consumeRandom; split <;> rfl
@[simp] theorem consumeRandom_redraw : (s.consumeRandom).redraw = s.redraw := by unfold State.consumeRandom; split <;> rfl
@[simp] theorem consumeRandom_keys : (s.consumeRandom).keys = s.keys := by unfold State.consumeRandom; split <;> rfl
@[simp] theorem consumeRandom_params : (s.consumeRandom).params = s.params := by unfold State.consumeRandom; split <;> rfl

end

/-! ### Register reads -/

section
variable (s : State) (x r : Nibble) (b : Byte)

/-- A register write is seen by reads of that register only. -/
@[simp] theorem reg_setReg : (s.setReg x b).reg r = if r = x then b else s.reg r := by
  simp only [State.reg, State.setReg, Vector.getElem_set]
  by_cases h : r = x
  · simp [h]
  · have : x.toNat ≠ r.toNat := fun e => h (BitVec.eq_of_toNat_eq e.symm)
    simp [h, this]

/-- A flag write is a write of `VF`. -/
@[simp] theorem reg_setFlag (f : Bool) :
    (s.setFlag f).reg r = if r = regF then flagByte f else s.reg r := by
  simp [State.setFlag]

/-- The flag is what `VF` holds, whichever register took the result (R163). -/
@[simp] theorem reg_setResultThenFlag (f : Bool) :
    (s.setResultThenFlag x b f).reg r =
      if r = regF then flagByte f else if r = x then b else s.reg r := by
  simp [State.setResultThenFlag]

end

/-- Registers depend on the register file alone. -/
theorem reg_congr {s t : State} (h : t.v = s.v) (r : Nibble) : t.reg r = s.reg r := by
  simp [State.reg, h]

@[simp] theorem reg_advance (s : State)  (r : Nibble) : (s.advance).reg r = s.reg r :=
  reg_congr (by simp) r
@[simp] theorem reg_rewind (s : State)  (r : Nibble) : (s.rewind).reg r = s.reg r :=
  reg_congr (by simp) r
@[simp] theorem reg_jumpTo (s : State) (w : Word) (r : Nibble) : (s.jumpTo w).reg r = s.reg r :=
  reg_congr (by simp) r
@[simp] theorem reg_skipIf (s : State) (c : Bool) (r : Nibble) : (s.skipIf c).reg r = s.reg r :=
  reg_congr (by simp) r
@[simp] theorem reg_consumeRandom (s : State)  (r : Nibble) : (s.consumeRandom).reg r = s.reg r :=
  reg_congr (by simp) r

end Sys2Proof.Machine
end

