-- ==== Sys2Proof/Laws/Ops.lean ====
section
/-! SUPPORT. What each shared operation can do, said once: the bounds check, MemRead, MemWrite, the fetch, push and pop,
register-range writes, and the parts a state shares with another. -/

namespace Sys2Proof.Machine

/-! ### The bounds check, MemRead and MemWrite -/

theorem inBounds_iff (addr len : Nat) : inBounds addr len = true ↔ addr + len ≤ 4096 := by
  simp [inBounds]

theorem memRead_of_le {addr n : Nat} (h : addr + n ≤ 4096) (s : State) (body : List Byte → Result) :
    memRead addr n s body = body (s.mem.readBytes addr n) := by
  simp [memRead, inBounds, h]

theorem memRead_of_gt {addr n : Nat} (h : 4096 < addr + n) (s : State) (body : List Byte → Result) :
    memRead addr n s body = .fault (.memoryOutOfBounds s) := by
  simp [memRead, inBounds, raise, show ¬ addr + n ≤ 4096 by omega]

theorem memWrite_of_le {addr : Nat} {bytes : List Byte} (h : addr + bytes.length ≤ 4096) (s : State) :
    memWrite addr bytes s = .next { s with mem := s.mem.writeBytes addr bytes } := by
  simp [memWrite, inBounds, h]

theorem memWrite_of_gt {addr : Nat} {bytes : List Byte} (h : 4096 < addr + bytes.length) (s : State) :
    memWrite addr bytes s = .fault (.memoryOutOfBounds s) := by
  simp [memWrite, inBounds, raise, show ¬ addr + bytes.length ≤ 4096 by omega]

/-! ### The fetch -/

theorem pcOdd_iff (w : Word) : w.getLsbD 0 = true ↔ w.toNat % 2 = 1 := by
  simp [BitVec.getLsbD, Nat.testBit_zero]

theorem fetchThen_of_odd {s : State} (h : s.pc.toNat % 2 = 1) (handler : Word → State → Result) :
    fetchThen s handler = .fault (.invalidAddress s) := by
  rw [fetchThen, if_pos ((pcOdd_iff _).mpr h)]; rfl

theorem fetchThen_of_outside {s : State} (h : s.pc.toNat % 2 = 0) (h' : 4096 ≤ s.pc.toNat)
    (handler : Word → State → Result) :
    fetchThen s handler = .fault (.memoryOutOfBounds s) := by
  rw [fetchThen, if_neg (by rw [pcOdd_iff]; omega), if_neg (by rw [inBounds_iff]; omega)]; rfl

theorem fetchThen_of_fetchable {s : State} (h : s.fetchable) (handler : Word → State → Result) :
    fetchThen s handler = handler (fetchedWord s) s.advance := by
  obtain ⟨h0, h1⟩ := h
  rw [fetchThen, if_neg (by rw [pcOdd_iff]; omega), if_pos ((inBounds_iff _ _).mpr h1)]

/-- The three cases of a step (R104, R215). -/
theorem step_cases (s : State) :
    (s.pc.toNat % 2 = 1 ∧ step s = .fault (.invalidAddress s)) ∨
    (s.pc.toNat % 2 = 0 ∧ 4096 ≤ s.pc.toNat ∧ step s = .fault (.memoryOutOfBounds s)) ∨
    (s.fetchable ∧ step s = exec s.current s.advance) := by
  by_cases h : s.pc.toNat % 2 = 1
  · exact .inl ⟨h, fetchThen_of_odd h _⟩
  · have h0 : s.pc.toNat % 2 = 0 := by omega
    by_cases h' : 4096 ≤ s.pc.toNat
    · exact .inr (.inl ⟨h0, h', fetchThen_of_outside h0 h' _⟩)
    · have hf : s.fetchable := ⟨h0, by omega⟩
      exact .inr (.inr ⟨hf, fetchThen_of_fetchable hf _⟩)

theorem step_of_fetchable {s : State} (h : s.fetchable) : step s = exec s.current s.advance :=
  fetchThen_of_fetchable h _

/-- A step that completes ran its instruction on the advanced state. -/
theorem exec_of_step_next {s t : State} (h : step s = .next t) :
    s.fetchable ∧ exec s.current s.advance = .next t := by
  rcases step_cases s with ⟨_, e⟩ | ⟨_, _, e⟩ | ⟨hf, e⟩
  · rw [e] at h; cases h
  · rw [e] at h; cases h
  · exact ⟨hf, e ▸ h⟩

/-! ### Stores and fetches -/

/-- Memory after a store at `I` is the stored bytes over the old memory. -/
theorem read_store_eq_overlaid (s : State) (stored : List Byte) (a : Nat) :
    (s.mem.writeBytes s.i.toNat stored).read a = s.overlaid stored a := by
  rw [Memory.read_writeBytes, State.overlaid]
  by_cases h1 : s.i.toNat ≤ a
  · by_cases h2 : a < s.i.toNat + stored.length
    · rw [if_pos ⟨h1, h2⟩, if_pos h1, List.getElem?_eq_getElem (by omega)]; rfl
    · rw [if_neg (by omega), if_pos h1, List.getElem?_eq_none (by omega)]; rfl
  · rw [if_neg (by omega), if_neg h1]

/-! ### The return-address stack -/

theorem pushAndJump_of_lt {s : State} (h : s.sp.toNat < 16) (target : Word) :
    pushAndJump target s =
      .next { s with stack := s.stack.set s.sp.toNat s.pc h, sp := s.sp + 1#8, pc := target } := by
  simp [pushAndJump, h]

theorem pushAndJump_of_ge {s : State} (h : 16 ≤ s.sp.toNat) (target : Word) :
    pushAndJump target s = .fault (.stackOverflow s) := by
  simp [pushAndJump, raise, show ¬ s.sp.toNat < 16 by omega]

theorem sp_pred {b : Byte} (h : 1 ≤ b.toNat) : (b - 1#8).toNat = b.toNat - 1 := by
  have := b.isLt
  rw [BitVec.toNat_sub]; simp; omega

theorem sp_succ {b : Byte} (h : b.toNat < 16) : (b + 1#8).toNat = b.toNat + 1 := by
  rw [BitVec.toNat_add]; simp; omega

/-- RET in its three cases (R132, R256). -/
theorem popAndJump_cases (s : State) :
    (s.sp.toNat = 0 ∧ popAndJump s = .fault (.stackUnderflow s)) ∨
    (1 ≤ s.sp.toNat ∧ s.sp.toNat ≤ 16 ∧ ∃ w, s.stackAt (s.sp.toNat - 1) = some w ∧
      popAndJump s = .next { s with sp := s.sp - 1#8, pc := w }) ∨
    (16 < s.sp.toNat ∧ popAndJump s = .refused .stackPointerAboveSixteen) := by
  by_cases h0 : s.sp = 0#8
  · exact .inl ⟨by simp [h0], by simp [popAndJump, h0, raise]⟩
  · have h1 : 1 ≤ s.sp.toNat := by
      rcases Nat.eq_zero_or_pos s.sp.toNat with h | h
      · exact absurd (BitVec.eq_of_toNat_eq (by simpa using h)) h0
      · exact h
    by_cases h16 : s.sp.toNat ≤ 16
    · have hs : s.stackAt (s.sp.toNat - 1) = some s.stack[s.sp.toNat - 1] :=
        Vector.getElem?_eq_getElem (by omega)
      exact .inr (.inl ⟨h1, h16, _, hs, by simp only [popAndJump, if_neg h0, sp_pred h1, hs]⟩)
    · have hs : s.stackAt (s.sp.toNat - 1) = none := Vector.getElem?_eq_none (by omega)
      exact .inr (.inr ⟨by omega, by simp only [popAndJump, if_neg h0, sp_pred h1, hs]⟩)

/-- A push is seen at its entry only. -/
theorem stackAt_set {s : State} {k : Nat} (h : k < 16) (w : Word) (j : Nat) :
    (s.stack.set k w h)[j]? = if j = k then some w else s.stackAt j := by
  rw [Vector.getElem?_set]
  by_cases e : j = k
  · subst e; simp
  · simp [e, State.stackAt, show k ≠ j from fun h => e h.symm]

/-! ### Register ranges -/

theorem regs_length (s : State) (n : Nat) : (s.regs n).length = n := by simp [State.regs]

theorem regs_getElem? (s : State) (n k : Nat) :
    (s.regs n)[k]? = if k < n then some (s.reg (BitVec.ofNat 4 k)) else none := by
  by_cases h : k < n <;> simp [State.regs, h]

section
variable (x : Nibble) (bs : List Byte) (s : State)

/-- A register-range write changes the register file alone. -/
theorem setRegs_eq : ∃ v, State.setRegs x bs s = { s with v := v } := by
  induction bs generalizing x s with
  | nil => exact ⟨s.v, rfl⟩
  | cons b bs ih => exact ih (x + 1#4) (s.setReg x b)

/-- Register `x + k` of a range write holds byte `k`; the registers before and after the range are kept. -/
theorem reg_setRegs (r : Nibble) (h : x.toNat + bs.length ≤ 16) :
    (State.setRegs x bs s).reg r =
      if x.toNat ≤ r.toNat ∧ r.toNat < x.toNat + bs.length then (bs[r.toNat - x.toNat]?).getD 0#8
      else s.reg r := by
  induction bs generalizing x s with
  | nil => simp [State.setRegs]
  | cons b bs ih =>
    simp only [State.setRegs, List.length_cons] at h ⊢
    have hr := r.isLt
    rcases Nat.eq_zero_or_pos bs.length with h0 | hpos
    · have hbs : bs = [] := List.length_eq_zero_iff.mp h0
      subst hbs
      by_cases e : r = x
      · subst e; simp [State.setRegs]
      · have : r.toNat ≠ x.toNat := fun h => e (BitVec.eq_of_toNat_eq h)
        simp [State.setRegs, e]; omega
    · have hx1 : (x + 1#4).toNat = x.toNat + 1 := by rw [BitVec.toNat_add]; simp; omega
      rw [ih (x + 1#4) _ (by omega), hx1, reg_setReg]
      by_cases e : r = x
      · subst e; simp
      · have hne : r.toNat ≠ x.toNat := fun h => e (BitVec.eq_of_toNat_eq h)
        rw [if_neg e]
        by_cases c : x.toNat + 1 ≤ r.toNat ∧ r.toNat < x.toNat + 1 + bs.length
        · rw [if_pos c, if_pos (by omega), show r.toNat - x.toNat = (r.toNat - (x.toNat + 1)) + 1 by omega,
            List.getElem?_cons_succ]
        · rw [if_neg c, if_neg (by omega)]

end

/-! ### Frames -/

theorem SameBut.refl (ps : List Part) (s : State) : SameBut ps s s := by
  intro p _; cases p <;> simp [Part.same]

/-- States with the same fields but those of the listed parts are the same but for those parts. -/
theorem sameBut_of_fields {ps : List Part} {s t : State}
    (regs : .regs ∈ ps ∨ t.v = s.v) (index : .index ∈ ps ∨ t.i = s.i) (pc : .pc ∈ ps ∨ t.pc = s.pc)
    (sp : .sp ∈ ps ∨ t.sp = s.sp) (stack : .stack ∈ ps ∨ t.stack = s.stack)
    (mem : .mem ∈ ps ∨ t.mem = s.mem) (dt : .dt ∈ ps ∨ t.dt = s.dt) (st : .st ∈ ps ∨ t.st = s.st)
    (disp : .disp ∈ ps ∨ t.disp = s.disp) (redraw : .redraw ∈ ps ∨ t.redraw = s.redraw)
    (keys : .keys ∈ ps ∨ t.keys = s.keys) (params : .params ∈ ps ∨ t.params = s.params)
    (random : .random ∈ ps ∨ (t.rndInput = s.rndInput ∧ t.rndDraws = s.rndDraws)) :
    SameBut ps s t := by
  intro p hp
  cases p <;>
    simp_all [Part.same, State.reg, State.stackAt, State.pixel, State.key]

end Sys2Proof.Machine
end

