-- ==== Sys2Proof/Laws/Draw.lean ====
section
/-! SUPPORT. What a draw does to a pixel: the loops of 43_display.md R181 touch each display pixel at most once. -/

namespace Sys2Proof.Machine

/-! ### One pixel -/

theorem pixel_toggle (d : Display) (x px : Fin 64) (y py : Fin 32) :
    Display.pixel (Display.toggle d x y) px py =
      if px = x ∧ py = y then !Display.pixel d px py else Display.pixel d px py := by
  simp only [Display.pixel, Display.toggle]
  by_cases hy : py = y
  · subst hy
    by_cases hx : px = x
    · subst hx; simp
    · have : x.val ≠ px.val := fun e => hx (Fin.ext e.symm)
      simp [hx, this]
  · have : y.val ≠ py.val := fun e => hy (Fin.ext e.symm)
    simp [hy, this]

@[simp] theorem pixel_blank (px : Fin 64) (py : Fin 32) : Display.pixel Display.blank px py = false := by
  simp [Display.pixel, Display.blank]

/-- Where a sprite pixel lands, as the claims say it. -/
theorem landing_eq_some {edge : DrawEdge} {x y : Nat} {px : Fin 64} {py : Fin 32} :
    landing edge x y = some (px, py) ↔ LandsOn edge x y px py := by
  have hx := px.isLt
  have hy := py.isLt
  unfold landing LandsOn
  split
  · rename_i h
    cases edge
    · simp [Fin.ext_iff]
    · simp [Fin.ext_iff]; omega
  · rename_i h
    cases edge
    · simp; omega
    · simp [Fin.ext_iff]

/-! ### Many pixels -/

/-- Plots sprite pixels one after the other. -/
def plotAll (edge : DrawEdge) : List (Nat × Nat) → Display × Bool → Display × Bool
  | [], acc => acc
  | c :: rest, acc => plotAll edge rest (plot edge c.1 c.2 acc)

theorem plotAll_append (edge : DrawEdge) (l l' : List (Nat × Nat)) (acc : Display × Bool) :
    plotAll edge (l ++ l') acc = plotAll edge l' (plotAll edge l acc) := by
  induction l generalizing acc with
  | nil => rfl
  | cons c rest ih => exact ih _

/-- No two sprite pixels of the list land on one display pixel. -/
def Separate (edge : DrawEdge) (l : List (Nat × Nat)) : Prop :=
  l.Pairwise fun c c' => ∀ px py, LandsOn edge c.1 c.2 px py → ¬ LandsOn edge c'.1 c'.2 px py

/-- Plotting separate sprite pixels toggles exactly the display pixels they land on, and reports a hit
exactly when one of those was set. -/
theorem plotAll_spec (edge : DrawEdge) (l : List (Nat × Nat)) (h : Separate edge l) (acc : Display × Bool) :
    (∀ px py,
      ((∃ c ∈ l, LandsOn edge c.1 c.2 px py) →
        Display.pixel (plotAll edge l acc).1 px py = !Display.pixel acc.1 px py) ∧
      ((¬ ∃ c ∈ l, LandsOn edge c.1 c.2 px py) →
        Display.pixel (plotAll edge l acc).1 px py = Display.pixel acc.1 px py)) ∧
    ((plotAll edge l acc).2 = true ↔ acc.2 = true ∨
      ∃ px py, (∃ c ∈ l, LandsOn edge c.1 c.2 px py) ∧ Display.pixel acc.1 px py = true) := by
  induction l generalizing acc with
  | nil => simp [plotAll]
  | cons c rest ih =>
    obtain ⟨hc, hrest⟩ := List.pairwise_cons.mp h
    obtain ⟨ih1, ih2⟩ := ih hrest (plot edge c.1 c.2 acc)
    simp only [plotAll]
    cases hl : landing edge c.1 c.2 with
    | none =>
      have hno : ∀ px py, ¬ LandsOn edge c.1 c.2 px py := fun px py hp => by
        rw [landing_eq_some.mpr hp] at hl; cases hl
      have hp : plot edge c.1 c.2 acc = acc := by simp [plot, hl]
      rw [hp] at ih1 ih2 ⊢
      exact ⟨by simpa [hno] using ih1, by simpa [hno] using ih2⟩
    | some q =>
      obtain ⟨qx, qy⟩ := q
      have hq := landing_eq_some.mp hl
      have honly : ∀ px py, LandsOn edge c.1 c.2 px py ↔ px = qx ∧ py = qy := fun px py => by
        rw [← landing_eq_some, hl]; simp [eq_comm]
      have hp : plot edge c.1 c.2 acc =
          (Display.toggle acc.1 qx qy, acc.2 || Display.pixel acc.1 qx qy) := by simp [plot, hl]
      have hsep : ∀ c' ∈ rest, ¬ LandsOn edge c'.1 c'.2 qx qy := fun c' hc' => hc c' hc' qx qy hq
      rw [hp] at ih1 ih2 ⊢
      constructor
      · intro px py
        by_cases e : px = qx ∧ py = qy
        · obtain ⟨rfl, rfl⟩ := e
          have hn : ¬ ∃ c' ∈ rest, LandsOn edge c'.1 c'.2 px py := by
            rintro ⟨c', hc', hp'⟩; exact hsep c' hc' hp'
          refine ⟨fun _ => ?_, fun h => absurd ⟨c, by simp, hq⟩ h⟩
          rw [(ih1 px py).2 hn, pixel_toggle, if_pos ⟨rfl, rfl⟩]
        · have hiff : (∃ c' ∈ c :: rest, LandsOn edge c'.1 c'.2 px py) ↔
              ∃ c' ∈ rest, LandsOn edge c'.1 c'.2 px py := by
            simp [honly, e]
          rw [hiff]
          have ht : Display.pixel (Display.toggle acc.1 qx qy) px py = Display.pixel acc.1 px py := by
            rw [pixel_toggle, if_neg e]
          exact ⟨fun h => by rw [(ih1 px py).1 h, ht], fun h => by rw [(ih1 px py).2 h, ht]⟩
      · rw [ih2]
        simp only [Bool.or_eq_true, pixel_toggle, List.mem_cons]
        constructor
        · rintro ((h | h) | ⟨px, py, ⟨c', hc', hp'⟩, hpix⟩)
          · exact .inl h
          · exact .inr ⟨qx, qy, ⟨c, .inl rfl, hq⟩, h⟩
          · have e : ¬ (px = qx ∧ py = qy) := by
              rintro ⟨rfl, rfl⟩; exact hsep c' hc' hp'
            rw [if_neg e] at hpix
            exact .inr ⟨px, py, ⟨c', .inr hc', hp'⟩, hpix⟩
        · rintro (h | ⟨px, py, ⟨c', hc' | hc', hp'⟩, hpix⟩)
          · exact .inl (.inl h)
          · subst hc'
            obtain ⟨rfl, rfl⟩ := (honly px py).mp hp'
            exact .inl (.inr hpix)
          · have e : ¬ (px = qx ∧ py = qy) := by
              rintro ⟨rfl, rfl⟩; exact hsep c' hc' hp'
            exact .inr ⟨px, py, ⟨c', hc', hp'⟩, by rwa [if_neg e]⟩

/-! ### A sprite as a list of pixels -/

/-- The set bits of a row, left to right. -/
def rowPixels (x0 y : Nat) (row : Byte) : List (Nat × Nat) :=
  ((List.range 8).filter fun c => row.getLsbD (7 - c)).map fun c => (x0 + c, y)

/-- The set bits of a sprite, row by row. -/
def spritePixels (x0 : Nat) : Nat → List Byte → List (Nat × Nat)
  | _, [] => []
  | y, row :: rows => rowPixels x0 y row ++ spritePixels x0 (y + 1) rows

theorem drawRow_eq (edge : DrawEdge) (x0 y : Nat) (row : Byte) (acc : Display × Bool) :
    drawRow edge x0 y row acc = plotAll edge (rowPixels x0 y row) acc := by
  unfold drawRow rowPixels
  generalize List.range 8 = cols
  induction cols generalizing acc with
  | nil => rfl
  | cons c cols ih =>
    by_cases h : row.getLsbD (7 - c) = true
    · simp only [List.foldl_cons, h, if_true, ih, List.filter_cons_of_pos, List.map_cons, plotAll]
    · simp only [List.foldl_cons, h, ih, List.filter_cons_of_neg, Bool.false_eq_true, if_false, not_false_iff]

theorem drawRows_eq (edge : DrawEdge) (x0 y : Nat) (rows : List Byte) (acc : Display × Bool) :
    drawRows edge x0 y rows acc = plotAll edge (spritePixels x0 y rows) acc := by
  induction rows generalizing y acc with
  | nil => rfl
  | cons row rows ih => simp only [drawRows, spritePixels, plotAll_append, drawRow_eq, ih]

theorem mem_rowPixels {x0 y : Nat} {row : Byte} {p : Nat × Nat} :
    p ∈ rowPixels x0 y row ↔ ∃ c, c < 8 ∧ row.getLsbD (7 - c) = true ∧ p = (x0 + c, y) := by
  simp only [rowPixels, List.mem_map, List.mem_filter, List.mem_range]
  constructor
  · rintro ⟨c, ⟨h1, h2⟩, rfl⟩; exact ⟨c, h1, h2, rfl⟩
  · rintro ⟨c, h1, h2, rfl⟩; exact ⟨c, ⟨h1, h2⟩, rfl⟩

/-- The pixels of a sprite: row r, column c, for each set bit. -/
theorem mem_spritePixels {x0 y : Nat} {rows : List Byte} {p : Nat × Nat} :
    p ∈ spritePixels x0 y rows ↔ ∃ r c row, rows[r]? = some row ∧ c < 8 ∧
      row.getLsbD (7 - c) = true ∧ p = (x0 + c, y + r) := by
  induction rows generalizing y with
  | nil => simp [spritePixels]
  | cons row rows ih =>
    simp only [spritePixels, List.mem_append, mem_rowPixels, ih]
    constructor
    · rintro (⟨c, h1, h2, rfl⟩ | ⟨r, c, row', h0, h1, h2, rfl⟩)
      · exact ⟨0, c, row, by simp, h1, h2, rfl⟩
      · exact ⟨r + 1, c, row', by simpa using h0, h1, h2, by simp; omega⟩
    · rintro ⟨r, c, row', h0, h1, h2, rfl⟩
      cases r with
      | zero =>
        simp only [List.getElem?_cons_zero, Option.some.injEq] at h0
        subst h0; exact .inl ⟨c, h1, h2, rfl⟩
      | succ r =>
        exact .inr ⟨r, c, row', by simpa using h0, h1, h2, by simp; omega⟩

/-- Two sprite pixels less than a display apart land on different display pixels. -/
theorem landsOn_separate {edge : DrawEdge} {x y x' y' : Nat} {px : Fin 64} {py : Fin 32}
    (hx : x ≤ x' + 63 ∧ x' ≤ x + 63) (hy : y ≤ y' + 31 ∧ y' ≤ y + 31) (hne : (x, y) ≠ (x', y'))
    (h : LandsOn edge x y px py) : ¬ LandsOn edge x' y' px py := by
  intro h'
  apply hne
  cases edge <;> simp only [LandsOn] at h h' <;> simp only [Prod.mk.injEq] <;> constructor <;> omega

/-- The pixels of a sprite of at most 15 rows are separate (R181 corner (g)). -/
theorem separate_spritePixels (edge : DrawEdge) (x0 y : Nat) (rows : List Byte) (h : rows.length ≤ 15) :
    Separate edge (spritePixels x0 y rows) := by
  induction rows generalizing y with
  | nil => exact List.Pairwise.nil
  | cons row rows ih =>
    simp only [List.length_cons] at h
    refine List.pairwise_append.mpr ⟨?_, ih (y + 1) (by omega), ?_⟩
    · unfold rowPixels
      refine List.Pairwise.map _ ?_ (List.Pairwise.filter _ (List.nodup_range.imp_of_mem ?_ : List.Pairwise
        (fun c c' => c ≠ c' ∧ c < 8 ∧ c' < 8) (List.range 8)))
      · rintro c c' ⟨hne, h1, h2⟩ px py hl
        exact landsOn_separate ⟨by simp only; omega, by simp only; omega⟩ ⟨by simp only; omega, by simp only; omega⟩
          (by simp; omega) hl
      · intro c c' hc hc' hne
        exact ⟨hne, List.mem_range.mp hc, List.mem_range.mp hc'⟩
    · intro p hp p' hp' px py hl
      obtain ⟨c, h1, _, rfl⟩ := mem_rowPixels.mp hp
      obtain ⟨r, c', row', h0, h1', _, rfl⟩ := mem_spritePixels.mp hp'
      have hr : r < rows.length := (List.getElem?_eq_some_iff.mp h0).1
      exact landsOn_separate ⟨by simp only; omega, by simp only; omega⟩ ⟨by simp only; omega, by simp only; omega⟩
        (by simp; omega) hl

/-- The sprite DRW reads from memory covers the pixels the claims say. -/
theorem spriteCovers_iff (s : State) (x y n : Nibble) (px : Fin 64) (py : Fin 32) :
    SpriteCovers s x y n px py ↔
      ∃ c ∈ spritePixels ((s.reg x).toNat % 64) ((s.reg y).toNat % 32)
        (s.mem.readBytes s.i.toNat n.toNat), LandsOn s.params.drawEdge c.1 c.2 px py := by
  constructor
  · rintro ⟨r, c, hr, hc, hb, hl⟩
    exact ⟨_, mem_spritePixels.mpr ⟨r, c, _, by rw [Memory.getElem?_readBytes, if_pos hr], hc, hb, rfl⟩, hl⟩
  · rintro ⟨p, hp, hl⟩
    obtain ⟨r, c, row, h0, hc, hb, rfl⟩ := mem_spritePixels.mp hp
    rw [Memory.getElem?_readBytes] at h0
    split at h0
    · rename_i hr
      injection h0 with h0
      subst h0
      exact ⟨r, c, hr, hc, hb, hl⟩
    · cases h0

/-- The covered pixels depend on `I`, memory, the two coordinates and the edge rule alone. -/
theorem spriteCovers_congr {s t : State} {x y n : Nibble} {px : Fin 64} {py : Fin 32} (hi : t.i = s.i)
    (hm : ∀ a, t.mem.read a = s.mem.read a) (hx : t.reg x = s.reg x) (hy : t.reg y = s.reg y)
    (hp : t.params = s.params) : SpriteCovers t x y n px py ↔ SpriteCovers s x y n px py := by
  simp only [SpriteCovers, hi, hm, hx, hy, hp]

end Sys2Proof.Machine
end

