-- ==== Sys2Proof/Laws/Exec.lean ====
section
/-! SUPPORT. What each handler answers, one equation or case split per instruction, so that no later proof unfolds a
meaning. -/

namespace Sys2Proof.Machine

section
variable (s : State) (x y n ign : Nibble) (kk nn : Byte) (nnn : Addr)

theorem exec_sys : exec (.sys nnn) s = .next s := rfl
theorem exec_nop8 : exec (.nop8 x y n) s = .next s := rfl
theorem exec_nopE : exec (.nopE x nn) s = .next s := rfl
theorem exec_nopF : exec (.nopF x nn) s = .next s := rfl
theorem exec_jp : exec (.jp nnn) s = .next (s.jumpTo (addrWord nnn)) := rfl
theorem exec_jpV0 : exec (.jpV0 nnn) s = .next (s.jumpTo (addrWord nnn + byteWord (s.reg 0x0#4))) := rfl
theorem exec_seImm : exec (.seImm x kk) s = .next (s.skipIf (s.reg x == kk)) := rfl
theorem exec_sneImm : exec (.sneImm x kk) s = .next (s.skipIf (s.reg x != kk)) := rfl
theorem exec_seReg : exec (.seReg x y ign) s = .next (s.skipIf (s.reg x == s.reg y)) := rfl
theorem exec_sneReg : exec (.sneReg x y ign) s = .next (s.skipIf (s.reg x != s.reg y)) := rfl
theorem exec_skp : exec (.skp x) s = .next (s.skipIf (s.key (s.keyIndex x))) := rfl
theorem exec_sknp : exec (.sknp x) s = .next (s.skipIf (!s.key (s.keyIndex x))) := rfl
theorem exec_ldImm : exec (.ldImm x kk) s = .next (s.setReg x kk) := rfl
theorem exec_addImm : exec (.addImm x kk) s = .next (s.setReg x (s.reg x + kk)) := rfl
theorem exec_ldReg : exec (.ldReg x y) s = .next (s.setReg x (s.reg y)) := rfl
theorem exec_orReg : exec (.orReg x y) s = .next (s.setReg x (s.reg x ||| s.reg y)) := rfl
theorem exec_andReg : exec (.andReg x y) s = .next (s.setReg x (s.reg x &&& s.reg y)) := rfl
theorem exec_xorReg : exec (.xorReg x y) s = .next (s.setReg x (s.reg x ^^^ s.reg y)) := rfl
theorem exec_addReg : exec (.addReg x y) s =
    .next (s.setResultThenFlag x (s.reg x + s.reg y) (carry (s.reg x) (s.reg y))) := rfl
theorem exec_subReg : exec (.subReg x y) s =
    .next (s.setResultThenFlag x (s.reg x - s.reg y) (noBorrow (s.reg x) (s.reg y))) := rfl
theorem exec_subnReg : exec (.subnReg x y) s =
    .next (s.setResultThenFlag x (s.reg y - s.reg x) (noBorrow (s.reg y) (s.reg x))) := rfl
theorem exec_shr : exec (.shr x y) s =
    .next (s.setResultThenFlag x (s.shiftOperand x y >>> 1) (lowBit (s.shiftOperand x y))) := rfl
theorem exec_shl : exec (.shl x y) s =
    .next (s.setResultThenFlag x (s.shiftOperand x y <<< 1) (highBit (s.shiftOperand x y))) := rfl
theorem exec_ldI : exec (.ldI nnn) s = .next { s with i := addrWord nnn } := rfl
theorem exec_addI : exec (.addI x) s = .next { s with i := s.i + byteWord (s.reg x) } := rfl
theorem exec_ldF : exec (.ldF x) s = .next { s with i := glyphAddress (s.reg x) } := rfl
theorem exec_rnd : exec (.rnd x kk) s =
    .next (s.consumeRandom.setReg x (s.randomByte &&& kk)) := rfl
theorem exec_cls : exec (.cls ign) s = .next { s with disp := Display.blank, redraw := true } := rfl
theorem exec_ldVxDT : exec (.ldVxDT x) s = .next (s.setReg x s.dt) := rfl
theorem exec_ldDTVx : exec (.ldDTVx x) s = .next { s with dt := s.reg x } := rfl
theorem exec_ldSTVx : exec (.ldSTVx x) s = .next { s with st := s.reg x } := rfl

/-- CALL completes below 16 entries and overflows from there. -/
theorem exec_call_cases :
    (∃ h : s.sp.toNat < 16, exec (.call nnn) s = .next
      { s with stack := s.stack.set s.sp.toNat s.pc h, sp := s.sp + 1#8, pc := addrWord nnn }) ∨
    (16 ≤ s.sp.toNat ∧ exec (.call nnn) s = .fault (.stackOverflow s)) := by
  by_cases h : s.sp.toNat < 16
  · exact .inl ⟨h, pushAndJump_of_lt h _⟩
  · exact .inr ⟨by omega, pushAndJump_of_ge (by omega) _⟩

/-- RET in its three cases. -/
theorem exec_ret_cases :
    (s.sp.toNat = 0 ∧ exec (.ret ign) s = .fault (.stackUnderflow s)) ∨
    (1 ≤ s.sp.toNat ∧ s.sp.toNat ≤ 16 ∧ ∃ w, s.stackAt (s.sp.toNat - 1) = some w ∧
      exec (.ret ign) s = .next { s with sp := s.sp - 1#8, pc := w }) ∨
    (16 < s.sp.toNat ∧ exec (.ret ign) s = .refused .stackPointerAboveSixteen) :=
  popAndJump_cases s

/-- The key wait: back to the instruction with no key pressed, else the reported key is written. -/
theorem exec_ldVxK_cases :
    (s.reportedKey = none ∧ exec (.ldVxK x) s = .next s.rewind) ∨
    (∃ k, s.reportedKey = some k ∧ exec (.ldVxK x) s = .next (s.setReg x (k.setWidth 8))) := by
  cases h : s.reportedKey with
  | none => exact .inl ⟨rfl, by simp only [exec, execLdVxK, h]⟩
  | some k => exact .inr ⟨k, rfl, by simp only [exec, execLdVxK, h]⟩

theorem exec_ldB_cases :
    (s.i.toNat + 3 ≤ 4096 ∧ exec (.ldB x) s = .next
      { s with mem := s.mem.writeBytes s.i.toNat (decimalDigits (s.reg x)) }) ∨
    (4096 < s.i.toNat + 3 ∧ exec (.ldB x) s = .fault (.memoryOutOfBounds s)) := by
  by_cases h : s.i.toNat + 3 ≤ 4096
  · exact .inl ⟨h, memWrite_of_le (bytes := decimalDigits (s.reg x)) h s⟩
  · exact .inr ⟨by omega, memWrite_of_gt (bytes := decimalDigits (s.reg x))
      (show 4096 < s.i.toNat + 3 by omega) s⟩

theorem exec_ldMemVx_cases :
    (s.i.toNat + x.toNat + 1 ≤ 4096 ∧ exec (.ldMemVx x) s = .next
      { s with mem := s.mem.writeBytes s.i.toNat (s.regs (x.toNat + 1)) }) ∨
    (4096 < s.i.toNat + x.toNat + 1 ∧ exec (.ldMemVx x) s = .fault (.memoryOutOfBounds s)) := by
  by_cases h : s.i.toNat + x.toNat + 1 ≤ 4096
  · exact .inl ⟨h, memWrite_of_le (bytes := s.regs (x.toNat + 1)) (show _ by rw [regs_length, State.blockAddress]; omega) s⟩
  · exact .inr ⟨by omega, memWrite_of_gt (bytes := s.regs (x.toNat + 1)) (show _ by rw [regs_length, State.blockAddress]; omega) s⟩

theorem exec_ldVxMem_cases :
    (s.i.toNat + x.toNat + 1 ≤ 4096 ∧ exec (.ldVxMem x) s = .next
      (State.setRegs 0x0#4 (s.mem.readBytes s.i.toNat (x.toNat + 1)) s)) ∨
    (4096 < s.i.toNat + x.toNat + 1 ∧ exec (.ldVxMem x) s = .fault (.memoryOutOfBounds s)) := by
  by_cases h : s.i.toNat + x.toNat + 1 ≤ 4096
  · refine .inl ⟨h, ?_⟩
    simp only [exec, execLdVxMem]
    exact memRead_of_le (show s.i.toNat + (x.toNat + 1) ≤ 4096 by omega) s _
  · refine .inr ⟨by omega, ?_⟩
    simp only [exec, execLdVxMem]
    exact memRead_of_gt (show 4096 < s.i.toNat + (x.toNat + 1) by omega) s _

/-- What DRW plots: the sprite's pixels on the display, no hit yet. -/
def State.drawn (s : State) (x y n : Nibble) : Display × Bool :=
  plotAll s.params.drawEdge (spritePixels ((s.reg x).toNat % 64) ((s.reg y).toNat % 32)
    (s.mem.readBytes s.i.toNat n.toNat)) (s.disp, false)

theorem exec_drw_cases :
    (s.i.toNat + n.toNat ≤ 4096 ∧ exec (.drw x y n) s = .next
      { s.setFlag (s.drawn x y n).2 with disp := (s.drawn x y n).1, redraw := true }) ∨
    (4096 < s.i.toNat + n.toNat ∧ exec (.drw x y n) s = .fault (.memoryOutOfBounds s)) := by
  by_cases h : s.i.toNat + n.toNat ≤ 4096
  · refine .inl ⟨h, ?_⟩
    rw [State.drawn, ← drawRows_eq]
    simp only [exec, execDrw]
    exact memRead_of_le h s _
  · refine .inr ⟨by omega, ?_⟩
    simp only [exec, execDrw]
    exact memRead_of_gt (show 4096 < s.i.toNat + n.toNat by omega) s _

end

end Sys2Proof.Machine
end

