-- ==== Sys2Proof/Laws/Operands.lean ====
section
/-! SUPPORT. What the operand forms, the flag values and the tick give: key scan and reported key, decimal digits, flag bytes,
the random byte. -/

namespace Sys2Proof.Machine

/-! ### The key scan -/

/-- The scan finds exactly the pressed keys. -/
@[simp] theorem mem_pressedKeys (s : State) (k : Nibble) : k ∈ s.pressedKeys ↔ s.key k = true := by
  simp only [State.pressedKeys, List.mem_filter, List.mem_map, List.mem_range]
  exact ⟨fun h => h.2, fun h => ⟨⟨k.toNat, k.isLt, by simp⟩, h⟩⟩

/-- The scan lists keys by rising index. -/
theorem pressedKeys_rising (s : State) : s.pressedKeys.Pairwise fun j k => j.toNat < k.toNat := by
  apply List.Pairwise.filter
  decide

theorem pressedKeys_eq_nil {s : State} (h : ∀ k, s.key k = false) : s.pressedKeys = [] :=
  List.eq_nil_iff_forall_not_mem.mpr fun k hk => by simp [h k] at hk

/-- No key is reported exactly when none is pressed. -/
theorem reportedKey_eq_none_iff (s : State) : s.reportedKey = none ↔ ∀ k, s.key k = false := by
  constructor
  · intro h k
    have : s.pressedKeys = [] := by
      unfold State.reportedKey at h
      cases hp : s.params.keywaitPick <;> simpa [hp] using h
    simpa [this] using mem_pressedKeys s k
  · intro h
    unfold State.reportedKey
    cases s.params.keywaitPick <;> simp [pressedKeys_eq_nil h]

/-- A reported key is pressed. -/
theorem key_of_reportedKey {s : State} {k : Nibble} (h : s.reportedKey = some k) : s.key k = true := by
  rw [← mem_pressedKeys]
  unfold State.reportedKey at h
  cases hp : s.params.keywaitPick <;> rw [hp] at h
  · exact List.mem_of_getLast? h
  · exact List.mem_of_head? h

/-- Under `highest` no pressed key lies above the reported one. -/
theorem le_reportedKey {s : State} {j k : Nibble} (hp : s.params.keywaitPick = .highest)
    (h : s.reportedKey = some k) (hj : s.key j = true) : j.toNat ≤ k.toNat := by
  rw [← mem_pressedKeys] at hj
  unfold State.reportedKey at h
  rw [hp] at h
  obtain ⟨l, hl⟩ := List.getLast?_eq_some_iff.mp h
  have hs := pressedKeys_rising s
  rw [hl] at hj hs
  rcases List.mem_append.mp hj with hj | hj
  · exact Nat.le_of_lt ((List.pairwise_append.mp hs).2.2 j hj k (by simp))
  · rw [List.mem_singleton.mp hj]

/-- Under `lowest` no pressed key lies below the reported one. -/
theorem reportedKey_le {s : State} {j k : Nibble} (hp : s.params.keywaitPick = .lowest)
    (h : s.reportedKey = some k) (hj : s.key j = true) : k.toNat ≤ j.toNat := by
  rw [← mem_pressedKeys] at hj
  unfold State.reportedKey at h
  rw [hp] at h
  obtain ⟨l, hl⟩ := List.head?_eq_some_iff.mp h
  have hs := pressedKeys_rising s
  rw [hl] at hj hs
  rcases List.mem_cons.mp hj with rfl | hj
  · exact Nat.le_refl _
  · exact Nat.le_of_lt ((List.pairwise_cons.mp hs).1 j hj)

/-- The key `SKP` and `SKNP` look at, as a number (R197). -/
@[simp] theorem keyIndex_toNat (s : State) (x : Nibble) : (s.keyIndex x).toNat = (s.reg x).toNat % 16 := by
  simp [State.keyIndex]

/-! ### Bytes -/

@[simp] theorem length_decimalDigits (b : Byte) : (decimalDigits b).length = 3 := rfl

theorem flagByte_eq (f : Bool) : flagByte f = if f = true then 1#8 else 0#8 := rfl

@[simp] theorem addrWord_toNat (nnn : Addr) : (addrWord nnn).toNat = nnn.toNat := by
  have := nnn.isLt
  simp only [addrWord, BitVec.toNat_setWidth]; omega

@[simp] theorem byteWord_toNat (b : Byte) : (byteWord b).toNat = b.toNat := by
  have := b.isLt
  simp only [byteWord, BitVec.toNat_setWidth]; omega

@[simp] theorem glyphAddress_toNat (b : Byte) : (glyphAddress b).toNat = b.toNat * 5 := by
  have := b.isLt
  rw [glyphAddress, BitVec.toNat_mul, byteWord_toNat]
  exact Nat.mod_eq_of_lt (by show b.toNat * 5 < 65536; omega)

/-- A tick of one counter (R224). -/
theorem tickDown_toNat (b : Byte) : (tickDown b).toNat = b.toNat - 1 := by
  revert b; decide

/-- A supplied byte is the next draw, and is consumed by it (R38, R174). -/
theorem randomByte_cons (s : State) (b : Byte) (rest : List Byte) :
    ({ s with rndInput := b :: rest } : State).randomByte = b ∧
      ({ s with rndInput := b :: rest } : State).consumeRandom = { s with rndInput := rest } :=
  ⟨rfl, rfl⟩

end Sys2Proof.Machine
end

