-- ==== Sys2Proof/Laws/PerInstr.lean ====
section
/-! SUPPORT. One family of lemmas, one lemma per constructor of `Instr`: the encoding of an instruction is a word of the
instruction's own row of the opcode table (30_encoding.md R106). -/

namespace Sys2Proof.Laws

/-- Mask 0xF000 on a word of format NNN leaves `OP`. -/
theorem maskOP_wordNNN (op : Nibble) (nnn : Addr) : wordNNN op nnn &&& 0xF000#16 = wordNNN op 0#12 :=
  (mask_op _ _).mpr (fieldOP_wordNNN ..)

/-- Mask 0xF000 on a word of format XNN leaves `OP`. -/
theorem maskOP_wordXNN (op x : Nibble) (nn : Byte) : wordXNN op x nn &&& 0xF000#16 = wordNNN op 0#12 :=
  (mask_op _ _).mpr (fieldOP_wordXNN ..)

/-- Mask 0xF000 on a word of format XYN leaves `OP`. -/
theorem maskOP_wordXYN (op x y n : Nibble) : wordXYN op x y n &&& 0xF000#16 = wordNNN op 0#12 :=
  (mask_op _ _).mpr (fieldOP_wordXYN ..)

/-- Mask 0xF0FF on a word of format XNN leaves `OP` and `NN`. -/
theorem maskNN_wordXNN (op x : Nibble) (nn : Byte) : wordXNN op x nn &&& 0xF0FF#16 = wordXNN op 0#4 nn :=
  (mask_op_NN _ _ _).mpr ⟨fieldOP_wordXNN .., fieldNN_wordXNN ..⟩

/-- Mask 0xF00F on a word of format XYN leaves `OP` and `N`. -/
theorem maskN_wordXYN (op x y n : Nibble) : wordXYN op x y n &&& 0xF00F#16 = wordXYN op 0#4 0#4 n :=
  (mask_op_N _ _ _).mpr ⟨fieldOP_wordXYN .., fieldN_wordXYN ..⟩

/-- A row of the table, found by its mnemonic, has a word. -/
theorem row_of_mask {i : Instr} (row : OpcodeRow) (hm : row ∈ opcodeRows) (hn : row.mnemonic = i.mnemonic)
    (h : encode i &&& row.mask = row.pattern) :
    ∃ row ∈ opcodeRows, row.mnemonic = i.mnemonic ∧ row.matchesWord (encode i) = true :=
  ⟨row, hm, hn, by simpa [OpcodeRow.matchesWord] using h⟩

end Sys2Proof.Laws

namespace Sys2Proof.Laws.RowMatch

/-- Some row of the table carries the instruction's mnemonic and has the word it encodes to. -/
def Statement (i : Instr) : Prop :=
  ∃ row ∈ opcodeRows, row.mnemonic = i.mnemonic ∧ row.matchesWord (encode i) = true

theorem cls (ign : Nibble) : Statement (.cls ign) :=
  row_of_mask ⟨"CLS", 0xF0FF#16, 0x00E0#16⟩ (by decide) rfl (maskNN_wordXNN ..)

theorem ret (ign : Nibble) : Statement (.ret ign) :=
  row_of_mask ⟨"RET", 0xF0FF#16, 0x00EE#16⟩ (by decide) rfl (maskNN_wordXNN ..)

theorem sys (nnn : Addr) : Statement (.sys nnn) :=
  row_of_mask ⟨"SYS_nnn", 0xF000#16, 0x0000#16⟩ (by decide) rfl (maskOP_wordNNN ..)

theorem jp (nnn : Addr) : Statement (.jp nnn) :=
  row_of_mask ⟨"JP_nnn", 0xF000#16, 0x1000#16⟩ (by decide) rfl (maskOP_wordNNN ..)

theorem call (nnn : Addr) : Statement (.call nnn) :=
  row_of_mask ⟨"CALL_nnn", 0xF000#16, 0x2000#16⟩ (by decide) rfl (maskOP_wordNNN ..)

theorem seImm (x : Nibble) (kk : Byte) : Statement (.seImm x kk) :=
  row_of_mask ⟨"SE_Vx__kk", 0xF000#16, 0x3000#16⟩ (by decide) rfl (maskOP_wordXNN ..)

theorem sneImm (x : Nibble) (kk : Byte) : Statement (.sneImm x kk) :=
  row_of_mask ⟨"SNE_Vx__kk", 0xF000#16, 0x4000#16⟩ (by decide) rfl (maskOP_wordXNN ..)

theorem seReg (x y ign : Nibble) : Statement (.seReg x y ign) :=
  row_of_mask ⟨"SE_Vx__Vy", 0xF000#16, 0x5000#16⟩ (by decide) rfl (maskOP_wordXYN ..)

theorem ldImm (x : Nibble) (kk : Byte) : Statement (.ldImm x kk) :=
  row_of_mask ⟨"LD_Vx__kk", 0xF000#16, 0x6000#16⟩ (by decide) rfl (maskOP_wordXNN ..)

theorem addImm (x : Nibble) (kk : Byte) : Statement (.addImm x kk) :=
  row_of_mask ⟨"ADD_Vx__kk", 0xF000#16, 0x7000#16⟩ (by decide) rfl (maskOP_wordXNN ..)

theorem ldReg (x y : Nibble) : Statement (.ldReg x y) :=
  row_of_mask ⟨"LD_Vx__Vy", 0xF00F#16, 0x8000#16⟩ (by decide) rfl (maskN_wordXYN ..)

theorem orReg (x y : Nibble) : Statement (.orReg x y) :=
  row_of_mask ⟨"OR_Vx__Vy", 0xF00F#16, 0x8001#16⟩ (by decide) rfl (maskN_wordXYN ..)

theorem andReg (x y : Nibble) : Statement (.andReg x y) :=
  row_of_mask ⟨"AND_Vx__Vy", 0xF00F#16, 0x8002#16⟩ (by decide) rfl (maskN_wordXYN ..)

theorem xorReg (x y : Nibble) : Statement (.xorReg x y) :=
  row_of_mask ⟨"XOR_Vx__Vy", 0xF00F#16, 0x8003#16⟩ (by decide) rfl (maskN_wordXYN ..)

theorem addReg (x y : Nibble) : Statement (.addReg x y) :=
  row_of_mask ⟨"ADD_Vx__Vy", 0xF00F#16, 0x8004#16⟩ (by decide) rfl (maskN_wordXYN ..)

theorem subReg (x y : Nibble) : Statement (.subReg x y) :=
  row_of_mask ⟨"SUB_Vx__Vy", 0xF00F#16, 0x8005#16⟩ (by decide) rfl (maskN_wordXYN ..)

theorem shr (x y : Nibble) : Statement (.shr x y) :=
  row_of_mask ⟨"SHR_Vx____Vy", 0xF00F#16, 0x8006#16⟩ (by decide) rfl (maskN_wordXYN ..)

theorem subnReg (x y : Nibble) : Statement (.subnReg x y) :=
  row_of_mask ⟨"SUBN_Vx__Vy", 0xF00F#16, 0x8007#16⟩ (by decide) rfl (maskN_wordXYN ..)

theorem shl (x y : Nibble) : Statement (.shl x y) :=
  row_of_mask ⟨"SHL_Vx____Vy", 0xF00F#16, 0x800E#16⟩ (by decide) rfl (maskN_wordXYN ..)

theorem nop8 (x y n : Nibble) : Statement (.nop8 x y n) :=
  row_of_mask ⟨"NOP.8", 0xF000#16, 0x8000#16⟩ (by decide) rfl (maskOP_wordXYN ..)

theorem sneReg (x y ign : Nibble) : Statement (.sneReg x y ign) :=
  row_of_mask ⟨"SNE_Vx__Vy", 0xF000#16, 0x9000#16⟩ (by decide) rfl (maskOP_wordXYN ..)

theorem ldI (nnn : Addr) : Statement (.ldI nnn) :=
  row_of_mask ⟨"LD_I__nnn", 0xF000#16, 0xA000#16⟩ (by decide) rfl (maskOP_wordNNN ..)

theorem jpV0 (nnn : Addr) : Statement (.jpV0 nnn) :=
  row_of_mask ⟨"JP_V0__nnn", 0xF000#16, 0xB000#16⟩ (by decide) rfl (maskOP_wordNNN ..)

theorem rnd (x : Nibble) (kk : Byte) : Statement (.rnd x kk) :=
  row_of_mask ⟨"RND_Vx__kk", 0xF000#16, 0xC000#16⟩ (by decide) rfl (maskOP_wordXNN ..)

theorem drw (x y n : Nibble) : Statement (.drw x y n) :=
  row_of_mask ⟨"DRW_Vx__Vy__n", 0xF000#16, 0xD000#16⟩ (by decide) rfl (maskOP_wordXYN ..)

theorem skp (x : Nibble) : Statement (.skp x) :=
  row_of_mask ⟨"SKP_Vx", 0xF0FF#16, 0xE09E#16⟩ (by decide) rfl (maskNN_wordXNN ..)

theorem sknp (x : Nibble) : Statement (.sknp x) :=
  row_of_mask ⟨"SKNP_Vx", 0xF0FF#16, 0xE0A1#16⟩ (by decide) rfl (maskNN_wordXNN ..)

theorem nopE (x : Nibble) (nn : Byte) : Statement (.nopE x nn) :=
  row_of_mask ⟨"NOP.E", 0xF000#16, 0xE000#16⟩ (by decide) rfl (maskOP_wordXNN ..)

theorem ldVxDT (x : Nibble) : Statement (.ldVxDT x) :=
  row_of_mask ⟨"LD_Vx__DT", 0xF0FF#16, 0xF007#16⟩ (by decide) rfl (maskNN_wordXNN ..)

theorem ldVxK (x : Nibble) : Statement (.ldVxK x) :=
  row_of_mask ⟨"LD_Vx__K", 0xF0FF#16, 0xF00A#16⟩ (by decide) rfl (maskNN_wordXNN ..)

theorem ldDTVx (x : Nibble) : Statement (.ldDTVx x) :=
  row_of_mask ⟨"LD_DT__Vx", 0xF0FF#16, 0xF015#16⟩ (by decide) rfl (maskNN_wordXNN ..)

theorem ldSTVx (x : Nibble) : Statement (.ldSTVx x) :=
  row_of_mask ⟨"LD_ST__Vx", 0xF0FF#16, 0xF018#16⟩ (by decide) rfl (maskNN_wordXNN ..)

theorem addI (x : Nibble) : Statement (.addI x) :=
  row_of_mask ⟨"ADD_I__Vx", 0xF0FF#16, 0xF01E#16⟩ (by decide) rfl (maskNN_wordXNN ..)

theorem ldF (x : Nibble) : Statement (.ldF x) :=
  row_of_mask ⟨"LD_F__Vx", 0xF0FF#16, 0xF029#16⟩ (by decide) rfl (maskNN_wordXNN ..)

theorem ldB (x : Nibble) : Statement (.ldB x) :=
  row_of_mask ⟨"LD_B__Vx", 0xF0FF#16, 0xF033#16⟩ (by decide) rfl (maskNN_wordXNN ..)

theorem ldMemVx (x : Nibble) : Statement (.ldMemVx x) :=
  row_of_mask ⟨"LD__I___Vx", 0xF0FF#16, 0xF055#16⟩ (by decide) rfl (maskNN_wordXNN ..)

theorem ldVxMem (x : Nibble) : Statement (.ldVxMem x) :=
  row_of_mask ⟨"LD_Vx___I", 0xF0FF#16, 0xF065#16⟩ (by decide) rfl (maskNN_wordXNN ..)

theorem nopF (x : Nibble) (nn : Byte) : Statement (.nopF x nn) :=
  row_of_mask ⟨"NOP.F", 0xF000#16, 0xF000#16⟩ (by decide) rfl (maskOP_wordXNN ..)

end Sys2Proof.Laws.RowMatch
end

