-- ==== Sys2Proof/Laws/Reset.lean ====
section
/-! SUPPORT. Reset under a configuration: its fields, its memory, and that the default configuration gives `State.reset`. -/

namespace Sys2Proof.Machine

section
variable (c : Configuration)

@[simp] theorem resetWith_v : (State.resetWith c).v = State.reset.v := rfl
@[simp] theorem resetWith_i : (State.resetWith c).i = State.reset.i := rfl
@[simp] theorem resetWith_pc : (State.resetWith c).pc = State.reset.pc := rfl
@[simp] theorem resetWith_sp : (State.resetWith c).sp = State.reset.sp := rfl
@[simp] theorem resetWith_stack : (State.resetWith c).stack = State.reset.stack := rfl
@[simp] theorem resetWith_dt : (State.resetWith c).dt = State.reset.dt := rfl
@[simp] theorem resetWith_st : (State.resetWith c).st = State.reset.st := rfl
@[simp] theorem resetWith_disp : (State.resetWith c).disp = State.reset.disp := rfl
@[simp] theorem resetWith_redraw : (State.resetWith c).redraw = State.reset.redraw := rfl
@[simp] theorem resetWith_keys : (State.resetWith c).keys = State.reset.keys := rfl
@[simp] theorem resetWith_params : (State.resetWith c).params = c.params := rfl
@[simp] theorem resetWith_rndInput : (State.resetWith c).rndInput = State.reset.rndInput := rfl
@[simp] theorem resetWith_rndDraws : (State.resetWith c).rndDraws = State.reset.rndDraws := rfl

/-- Outside the font region an address that nothing has written reads 0 (R44). -/
theorem resetByte_of_ge {a : Nat} (h : 80 ≤ a) : resetByte a = 0#8 := by
  have : font.length = 80 := rfl
  simp [resetByte, List.getElem?_eq_none (show font.length ≤ a by omega)]

/-- Memory after reset: `FONT` in its region and 0 above (R43, R44). -/
theorem read_resetWith (a : Nat) :
    (State.resetWith c).mem.read a = if a < 80 then (c.font[a]?).getD 0#8 else 0#8 := by
  show Memory.read (Memory.writeBytes [] 0 c.font.toList) a = _
  rw [Memory.read_writeBytes]
  by_cases h : a < 80
  · simp [h]
  · simp [h, Memory.read, resetByte_of_ge (show 80 ≤ a by omega)]

/-- Every reset has its memory in canonical form. -/
theorem wf_resetWith : (State.resetWith c).mem.wf = true :=
  Memory.wf_writeBytes _ rfl (by simp [Config.fontBase])

end

/-- The default configuration's reset is `State.reset`. -/
theorem resetWith_defaultConfiguration : State.resetWith defaultConfiguration = State.reset := by
  decide

end Sys2Proof.Machine
end

