-- ==== Sys2Proof/Tests/Slice0.lean ====
section
/-! SUPPORT. The model's own tests: ill-formed terms, words written out from the spec's encodings, and single steps whose
expected results are those of spec/95_test_vectors.md (the vector's id stands in each comment); then a witness for the
hypotheses of every statement. -/

namespace Sys2Proof.Tests

open Machine

/-! ### Helpers -/

/-- The reset state with some registers set. -/
def start (regs : List (Nibble × Byte)) : State :=
  regs.foldl (fun s r => s.setReg r.1 r.2) State.reset

/-- The reset state with `I` and some registers set, and bytes at an address. -/
def startMem (i : Word) (regs : List (Nibble × Byte)) (a : Nat) (bytes : List Byte) : State :=
  { start regs with i := i, mem := Memory.writeBytes [] a bytes }

/-- One step at the word `w`. -/
def stepAt (w : Nat) (s : State) : Result := step (s.withFetchWord 16 w)

/-- The answer is a next state with the property. -/
def after (r : Result) (p : State → Bool) : Bool :=
  match r with
  | .next t => p t
  | .fault _ => false
  | .refused _ => false

/-- The answer is an error whose state has the property. -/
def failed (r : Result) (kind : ErrorKind) (p : State → Bool) : Bool :=
  match r with
  | .fault f => f.kind == kind && p f.after
  | .next _ => false
  | .refused _ => false

/-- The answer is a next state. -/
def completes (r : Result) : Bool := after r fun _ => true

theorem exists_next {r : Result} (h : completes r = true) : ∃ t, r = .next t := by
  cases r with
  | next t => exact ⟨t, rfl⟩
  | fault f => cases h
  | refused f => cases h

/-- The registers of a list hold its values. -/
def holds (t : State) (regs : List (Nibble × Byte)) : Bool := regs.all fun r => t.reg r.1 == r.2

/-- Some pixels are all 1, and some others all 0. -/
def pixels (t : State) (on off : List (Fin 64 × Fin 32)) : Bool :=
  on.all (fun p => t.pixel p.1 p.2) && off.all fun p => !t.pixel p.1 p.2

/-! ### WellFormed: an ill-formed term for each check -/

theorem test_wellFormed_sys_cls : (Instr.sys 0x3E0#12).wellFormed = false := by decide
theorem test_wellFormed_sys_ret : (Instr.sys 0x0EE#12).wellFormed = false := by decide
theorem test_wellFormed_nop8 :
    (family8Keys.all fun n => !(Instr.nop8 0x1#4 0x2#4 n).wellFormed) = true := by decide
theorem test_wellFormed_nopE :
    (familyEKeys.all fun k => !(Instr.nopE 0x1#4 k).wellFormed) = true := by decide
theorem test_wellFormed_nopF :
    (familyFKeys.all fun k => !(Instr.nopF 0x1#4 k).wellFormed) = true := by decide

/-! ### Decoding: one word of every row, bit by bit from R106 (fields X, Y, N or X, kk or nnn in order) -/

theorem test_decode_0 :
    decodeTableWord 16 0b0000000011100000 = some (.cls 0x0#4) ∧
    decodeTableWord 16 0b0000000011101110 = some (.ret 0x0#4) ∧
    decodeTableWord 16 0b0000000100100011 = some (.sys 0x123#12) := by
  decide

theorem test_decode_jumps :
    decodeTableWord 16 0b0001001000110100 = some (.jp 0x234#12) ∧
    decodeTableWord 16 0b0010101010111100 = some (.call 0xABC#12) ∧
    decodeTableWord 16 0b1011001100000100 = some (.jpV0 0x304#12) := by
  decide

theorem test_decode_skips :
    decodeTableWord 16 0b0011001101000010 = some (.seImm 0x3#4 0x42#8) ∧
    decodeTableWord 16 0b0100001101000010 = some (.sneImm 0x3#4 0x42#8) ∧
    decodeTableWord 16 0b0101000100100000 = some (.seReg 0x1#4 0x2#4 0x0#4) ∧
    decodeTableWord 16 0b1001000100100000 = some (.sneReg 0x1#4 0x2#4 0x0#4) := by
  decide

theorem test_decode_immediates :
    decodeTableWord 16 0b0110101001111111 = some (.ldImm 0xA#4 0x7F#8) ∧
    decodeTableWord 16 0b0111000001010110 = some (.addImm 0x0#4 0x56#8) ∧
    decodeTableWord 16 0b1010001011110000 = some (.ldI 0x2F0#12) ∧
    decodeTableWord 16 0b1100001100001111 = some (.rnd 0x3#4 0x0F#8) := by
  decide

theorem test_decode_8_logic :
    decodeTableWord 16 0b1000000100100000 = some (.ldReg 0x1#4 0x2#4) ∧
    decodeTableWord 16 0b1000000100100001 = some (.orReg 0x1#4 0x2#4) ∧
    decodeTableWord 16 0b1000000100100010 = some (.andReg 0x1#4 0x2#4) ∧
    decodeTableWord 16 0b1000000100100011 = some (.xorReg 0x1#4 0x2#4) := by
  decide

theorem test_decode_8_arithmetic :
    decodeTableWord 16 0b1000000100100100 = some (.addReg 0x1#4 0x2#4) ∧
    decodeTableWord 16 0b1000000100100101 = some (.subReg 0x1#4 0x2#4) ∧
    decodeTableWord 16 0b1000000100100110 = some (.shr 0x1#4 0x2#4) ∧
    decodeTableWord 16 0b1000000100100111 = some (.subnReg 0x1#4 0x2#4) ∧
    decodeTableWord 16 0b1000000100101110 = some (.shl 0x1#4 0x2#4) ∧
    decodeTableWord 16 0b1000000100101000 = some (.nop8 0x1#4 0x2#4 0x8#4) := by
  decide

theorem test_decode_D :
    decodeTableWord 16 0b1101011110100101 = some (.drw 0x7#4 0xA#4 0x5#4) := by
  decide

theorem test_decode_E :
    decodeTableWord 16 0b1110010010011110 = some (.skp 0x4#4) ∧
    decodeTableWord 16 0b1110010010100001 = some (.sknp 0x4#4) ∧
    decodeTableWord 16 0b1110000110011111 = some (.nopE 0x1#4 0x9F#8) := by
  decide

theorem test_decode_F_timers :
    decodeTableWord 16 0b1111010100000111 = some (.ldVxDT 0x5#4) ∧
    decodeTableWord 16 0b1111001100001010 = some (.ldVxK 0x3#4) ∧
    decodeTableWord 16 0b1111010100010101 = some (.ldDTVx 0x5#4) ∧
    decodeTableWord 16 0b1111010100011000 = some (.ldSTVx 0x5#4) := by
  decide

theorem test_decode_F_memory :
    decodeTableWord 16 0b1111001000011110 = some (.addI 0x2#4) ∧
    decodeTableWord 16 0b1111001100101001 = some (.ldF 0x3#4) ∧
    decodeTableWord 16 0b1111000000110011 = some (.ldB 0x0#4) ∧
    decodeTableWord 16 0b1111001001010101 = some (.ldMemVx 0x2#4) ∧
    decodeTableWord 16 0b1111001001100101 = some (.ldVxMem 0x2#4) ∧
    decodeTableWord 16 0b1111000101110101 = some (.nopF 0x1#4 0x75#8) := by
  decide

/-- 95_test_vectors.md F11, F12, F16, F17: the bits a row does not look at (D2, D4). -/
theorem test_decode_ignored_bits :
    decodeTableWord 16 0x0AE0 = some (.cls 0xA#4) ∧ decodeTableWord 16 0x0CEE = some (.ret 0xC#4) ∧
    decodeTableWord 16 0x5127 = some (.seReg 0x1#4 0x2#4 0x7#4) ∧
    decodeTableWord 16 0x912F = some (.sneReg 0x1#4 0x2#4 0xF#4) := by
  decide

/-- 95_test_vectors.md 2.1: the fields of 0xD7A5. -/
theorem test_fields :
    fieldOP 0xD7A5#16 = 0xD#4 ∧ fieldX 0xD7A5#16 = 0x7#4 ∧ fieldY 0xD7A5#16 = 0xA#4 ∧
    fieldN 0xD7A5#16 = 0x5#4 ∧ fieldNN 0xD7A5#16 = 0xA5#8 ∧ fieldNNN 0xD7A5#16 = 0x7A5#12 := by
  decide

/-- F1: big-endian; one byte alone is no instruction. -/
theorem test_bytes_order : wordOfBytes 0x12#8 0x34#8 = 0x1234#16 ∧ bytesOfWord 0x1234#16 = [0x12#8, 0x34#8] := by
  decide

/-! ### Fetch (F3 to F7) -/

/-- F4: parity first, nothing changed. -/
theorem test_fetch_odd :
    failed (step { State.reset with pc := 0x0FFF#16 }) .invalidAddress (fun t => t == { State.reset with pc := 0x0FFF#16 }) = true := by
  decide

/-- F5. -/
theorem test_fetch_odd_outside :
    failed (step { State.reset with pc := 0x1001#16 }) .invalidAddress (fun t => t.pc == 0x1001#16) = true := by
  decide

/-- F3: nothing changed. -/
theorem test_fetch_outside :
    failed (step { State.reset with pc := 0x1000#16 }) .memoryOutOfBounds (fun t => t == { State.reset with pc := 0x1000#16 }) = true := by
  decide

/-- F2: 0x0FFE is the last legal address. -/
theorem test_fetch_last :
    after (step { State.reset with pc := 0x0FFE#16 }) (fun t => t.pc == 0x1000#16) = true := by
  decide

/-- F7: the font's first word 0xF090 is a no-op. -/
theorem test_fetch_font :
    after (step { State.reset with pc := 0x0000#16 }) (fun t => t == { State.reset with pc := 0x0002#16 }) = true := by
  decide

/-! ### Control flow (C1 to C28, F8 to F17) -/

/-- F9. -/
theorem test_sys :
    after (stepAt 0x0123 State.reset) (fun t => t == { State.reset.withFetchWord 16 0x0123 with pc := 0x202#16 }) = true := by
  decide

/-- F10: 0x00E1 is no CLS. -/
theorem test_sys_not_cls :
    after (stepAt 0x00E1 State.reset) (fun t => !t.redraw && t.pc == 0x202#16) = true := by
  decide

/-- C1. -/
theorem test_jp :
    after (stepAt 0x1ABC State.reset) (fun t => t.pc == 0x0ABC#16) = true := by
  decide

/-- C3: an odd target is accepted. -/
theorem test_jp_odd :
    after (stepAt 0x1201 State.reset) (fun t => t.pc == 0x0201#16) = true := by
  decide

/-- C5. -/
theorem test_call :
    after (stepAt 0x2ABC State.reset) (fun t =>
      t.stackAt 0 == some 0x0202#16 && t.sp == 1#8 && t.pc == 0x0ABC#16) = true := by
  decide

/-- C7: `pc` stays advanced. -/
theorem test_call_full :
    failed (stepAt 0x2ABC { State.reset with sp := 16#8 }) .stackOverflow (fun t =>
      t.pc == 0x202#16 && t.sp == 16#8 && t.stackAt 15 == some 0#16) = true := by
  decide

/-- C8: the entry is kept (D22). -/
theorem test_ret :
    after (stepAt 0x00EE { State.reset with sp := 1#8, stack := State.reset.stack.set 0 0x0456#16 }) (fun t =>
      t.pc == 0x0456#16 && t.sp == 0#8 && t.stackAt 0 == some 0x0456#16) = true := by
  decide

/-- C10. -/
theorem test_ret_empty :
    failed (stepAt 0x00EE State.reset) .stackUnderflow (fun t => t.pc == 0x202#16 && t.sp == 0#8) = true := by
  decide

/-- C11. -/
theorem test_seImm_taken :
    after (stepAt 0x3342 (start [(3, 0x42)])) (fun t => t.pc == 0x204#16) = true := by
  decide

/-- C12. -/
theorem test_seImm_not_taken :
    after (stepAt 0x3342 (start [(3, 0x41)])) (fun t => t.pc == 0x202#16) = true := by
  decide

/-- C14. -/
theorem test_sneImm_taken :
    after (stepAt 0x4342 (start [(3, 0x41)])) (fun t => t.pc == 0x204#16) = true := by
  decide

/-- C13. -/
theorem test_sneImm_not_taken :
    after (stepAt 0x4342 (start [(3, 0x42)])) (fun t => t.pc == 0x202#16) = true := by
  decide

/-- F16: the low nibble is ignored. -/
theorem test_seReg_taken :
    after (stepAt 0x5127 (start [(1, 9), (2, 9)])) (fun t => t.pc == 0x204#16) = true := by
  decide

/-- C16. -/
theorem test_seReg_not_taken :
    after (stepAt 0x5120 (start [(1, 7), (2, 8)])) (fun t => t.pc == 0x202#16) = true := by
  decide

/-- F17: the low nibble is ignored. -/
theorem test_sneReg_taken :
    after (stepAt 0x912F (start [(1, 1), (2, 2)])) (fun t => t.pc == 0x204#16) = true := by
  decide

/-- C19. -/
theorem test_sneReg_not_taken :
    after (stepAt 0x9120 (start [(1, 7), (2, 7)])) (fun t => t.pc == 0x202#16) = true := by
  decide

/-- C28: bits 11 to 8 are address bits, V1 is not used. -/
theorem test_jpV0 :
    after (stepAt 0xB123 (start [(1, 0x55), (0, 0)])) (fun t => t.pc == 0x0123#16) = true := by
  decide

/-- C26: the sum is not reduced to 12 bits (D28). -/
theorem test_jpV0_not_masked :
    after (stepAt 0xBFFF (start [(0, 0xFF)])) (fun t => t.pc == 0x10FE#16) = true := by
  decide

/-! ### Reset under another FONT (R6, R43) -/

/-- A configuration whose font is not the default one. -/
def otherFont : Configuration := { defaultConfiguration with font := Vector.replicate 80 0x55#8 }

theorem test_reset_other_font : (State.resetWith otherFont).mem.read 0 = 0x55#8 ∧
    (State.resetWith otherFont).mem.read 79 = 0x55#8 ∧ (State.resetWith otherFont).mem.read 80 = 0x00#8 := by
  simp only [read_resetWith]
  decide

/-! ### Registers and ALU (A1 to A30) -/

/-- A2: VF as a destination. -/
theorem test_ldImm :
    after (stepAt 0x6F33 (start [])) (fun t => holds t [(15, 0x33)]) = true := by
  decide

/-- S2: V0 = 0x7A, the flag register unchanged. -/
theorem test_addImm :
    after (stepAt 0x7056 (start [(0, 0x24), (15, 1)])) (fun t => holds t [(0, 0x7A), (15, 1)]) = true := by
  decide

/-- A4: no carry. -/
theorem test_addImm_wrap :
    after (stepAt 0x7001 (start [(0, 0xFF)])) (fun t => holds t [(0, 0), (15, 0)]) = true := by
  decide

/-- A7. -/
theorem test_ldReg :
    after (stepAt 0x8120 (start [(2, 0x99)])) (fun t => holds t [(1, 0x99), (2, 0x99)]) = true := by
  decide

/-- A8: VF unchanged (D9). -/
theorem test_orReg :
    after (stepAt 0x8121 (start [(1, 0xF0), (2, 0x0F), (15, 1)])) (fun t => holds t [(1, 0xFF), (15, 1)]) = true := by
  decide

/-- A9. -/
theorem test_andReg :
    after (stepAt 0x8122 (start [(1, 0xF0), (2, 0x3C), (15, 1)])) (fun t => holds t [(1, 0x30), (15, 1)]) = true := by
  decide

/-- A10. -/
theorem test_xorReg :
    after (stepAt 0x8123 (start [(1, 0xF0), (2, 0x3C), (15, 1)])) (fun t => holds t [(1, 0xCC), (15, 1)]) = true := by
  decide

/-- A11. -/
theorem test_xorReg_same :
    after (stepAt 0x8113 (start [(1, 0xAB)])) (fun t => holds t [(1, 0)]) = true := by
  decide

/-- A12. -/
theorem test_addReg :
    after (stepAt 0x8124 (start [(1, 0xC8), (2, 0x64)])) (fun t => holds t [(1, 0x2C), (15, 1), (2, 0x64)]) = true := by
  decide

/-- A25: the flag is written last (D8). -/
theorem test_addReg_flag_last :
    after (stepAt 0x8F14 (start [(15, 0xFF), (1, 2)])) (fun t => holds t [(15, 1)]) = true := by
  decide

/-- A15. -/
theorem test_subReg_borrow :
    after (stepAt 0x8125 (start [(1, 0x10), (2, 0x20)])) (fun t => holds t [(1, 0xF0), (15, 0)]) = true := by
  decide

/-- A16. -/
theorem test_subReg_equal :
    after (stepAt 0x8125 (start [(1, 0x20), (2, 0x20)])) (fun t => holds t [(1, 0), (15, 1)]) = true := by
  decide

/-- A17. -/
theorem test_subnReg :
    after (stepAt 0x8127 (start [(1, 0x10), (2, 0x20)])) (fun t => holds t [(1, 0x10), (15, 1)]) = true := by
  decide

/-- A18. -/
theorem test_subnReg_borrow :
    after (stepAt 0x8127 (start [(1, 0x20), (2, 0x10)])) (fun t => holds t [(1, 0xF0), (15, 0)]) = true := by
  decide

/-- A23, SHIFT_SRC = X. -/
theorem test_shr :
    after (stepAt 0x8126 (start [(1, 5), (2, 0x82)])) (fun t => holds t [(1, 2), (2, 0x82), (15, 1)]) = true := by
  decide

/-- A23, SHIFT_SRC = Y. -/
theorem test_shr_y :
    after (stepAt 0x8126 ({ start [(1, 5), (2, 0x82)] with params := ⟨.y, .clip, .highest⟩ })) (fun t => holds t [(1, 0x41), (2, 0x82), (15, 0)]) = true := by
  decide

/-- A24, SHIFT_SRC = X. -/
theorem test_shl :
    after (stepAt 0x812E (start [(1, 5), (2, 0x82)])) (fun t => holds t [(1, 0x0A), (2, 0x82), (15, 0)]) = true := by
  decide

/-- A24, SHIFT_SRC = Y. -/
theorem test_shl_y :
    after (stepAt 0x812E ({ start [(1, 5), (2, 0x82)] with params := ⟨.y, .clip, .highest⟩ })) (fun t => holds t [(1, 4), (2, 0x82), (15, 1)]) = true := by
  decide

/-- F13. -/
theorem test_nop8 :
    after (stepAt 0x812F (start [(1, 3), (2, 4), (15, 5)])) (fun t =>
      holds t [(1, 3), (2, 4), (15, 5)] && t.pc == 0x202#16) = true := by
  decide

/-! ### Index register and random byte (I1 to I14) -/

/-- I2. -/
theorem test_ldI :
    after (stepAt 0xAFFF State.reset) (fun t => t.i == 0x0FFF#16) = true := by
  decide

/-- I4: no flag, not masked to 12 bits. -/
theorem test_addI :
    after (stepAt 0xF21E { start [(2, 1)] with i := 0x0FFF#16 }) (fun t => t.i == 0x1000#16 && holds t [(15, 0)]) = true := by
  decide

/-- I5. -/
theorem test_addI_wrap :
    after (stepAt 0xF21E { start [(2, 1)] with i := 0xFFFF#16 }) (fun t => t.i == 0x0000#16) = true := by
  decide

/-- I9. -/
theorem test_ldF :
    after (stepAt 0xF329 (start [(3, 0x0F)])) (fun t => t.i == 0x004B#16) = true := by
  decide

/-- I10: no mask (D10). -/
theorem test_ldF_whole_byte :
    after (stepAt 0xF329 (start [(3, 0xFF)])) (fun t => t.i == 0x04FB#16) = true := by
  decide

/-- I12: a supplied byte is used once. -/
theorem test_rnd :
    after (stepAt 0xC3F0 { State.reset with rndInput := [0xB7#8, 0x01#8] }) (fun t =>
      holds t [(3, 0xB0)] && t.rndInput == [0x01#8]) = true := by
  decide

/-- I13: with mask 0 the result is 0 whatever the free byte, and the draw is counted. -/
theorem test_rnd_mask_zero : ∃ t, exec (.rnd 0x3#4 0x00#8) State.reset = .next t ∧
    t.reg 0x3#4 = 0x00#8 ∧ t.rndDraws = 1 :=
  ⟨_, exec_rnd .., by simp, rfl⟩

/-! ### Display (D1 to D15) -/

/-- D1. -/
theorem test_drw :
    after (stepAt 0xD121 (startMem 0x300 [(1, 2), (2, 1)] 0x300 [0xC0])) (fun t =>
      pixels t [(2, 1), (3, 1)] [(1, 1), (4, 1), (2, 0), (2, 2)] && holds t [(15, 0)] && t.redraw) = true := by
  decide

/-- D7: `DRAW_EDGE` = wrap. -/
theorem test_drw_wrap :
    after (stepAt 0xD013 { startMem 0x300 [(0, 60), (1, 30)] 0x300 [0xFF, 0x81, 0xFF] with
      params := ⟨.x, .wrap, .highest⟩ }) (fun t =>
        pixels t [(0, 0), (63, 0), (3, 30), (60, 30), (3, 31), (60, 31)] [(4, 0), (59, 30), (0, 31), (61, 31), (60, 1)]) = true := by
  decide

/-- S1, D14: `VF` is not written. -/
theorem test_cls :
    after (stepAt 0x00E0 { start [(15, 1)] with disp := Vector.replicate 32 (Vector.replicate 64 true) }) (fun t =>
      pixels t [] [(0, 0), (63, 31), (63, 0), (0, 31), (31, 16)] && t.redraw && holds t [(15, 1)]) = true := by
  decide

/-! ### Keys and timers (K1 to K12, T1 to T4) -/

/-- K5: the index is the low four bits (D11). -/
theorem test_skp :
    after (stepAt 0xE49E { start [(4, 0x1A)] with keys := State.reset.keys.set 10 true }) (fun t => t.pc == 0x204#16) = true := by
  decide

/-- K2. -/
theorem test_skp_not_taken :
    after (stepAt 0xE49E { start [(4, 7)] with keys := (Vector.replicate 16 true).set 7 false }) (fun t => t.pc == 0x202#16) = true := by
  decide

/-- K3. -/
theorem test_sknp :
    after (stepAt 0xE4A1 (start [(4, 7)])) (fun t => t.pc == 0x204#16) = true := by
  decide

/-- K4. -/
theorem test_sknp_not_taken :
    after (stepAt 0xE4A1 { start [(4, 7)] with keys := State.reset.keys.set 7 true }) (fun t => t.pc == 0x202#16) = true := by
  decide

/-- F14. -/
theorem test_nopE :
    after (stepAt 0xE19F State.reset) (fun t => t == { State.reset.withFetchWord 16 0xE19F with pc := 0x202#16 }) = true := by
  decide

/-- K6, S5: the state is the start state. -/
theorem test_ldVxK_waits :
    after (stepAt 0xF30A (start [(3, 0x55)])) (fun t => t == (start [(3, 0x55)]).withFetchWord 16 0xF30A) = true := by
  decide

/-- K7 for both values of `KEYWAIT_PICK`. -/
theorem test_ldVxK_reports :
    (after (stepAt 0xF30A { State.reset with keys := (State.reset.keys.set 3 true).set 9 true }) (fun t =>
      holds t [(3, 9)] && t.pc == 0x202#16) &&
    after (stepAt 0xF30A { State.reset with keys := (State.reset.keys.set 3 true).set 9 true, params := ⟨.x, .clip, .lowest⟩ })
      (fun t => holds t [(3, 3)])) = true := by
  decide

/-- K9. -/
theorem test_ldVxDT :
    after (stepAt 0xF507 { State.reset with dt := 0x2A#8 }) (fun t => holds t [(5, 0x2A)] && t.dt == 0x2A#8) = true := by
  decide

/-- K10. -/
theorem test_ldDTVx :
    after (stepAt 0xF515 (start [(5, 0x3C)])) (fun t => t.dt == 0x3C#8 && t.st == 0#8) = true := by
  decide

/-- K11. -/
theorem test_ldSTVx :
    after (stepAt 0xF518 (start [(5, 5)])) (fun t => t.st == 5#8 && t.dt == 0#8) = true := by
  decide

/-- F15. -/
theorem test_nopF :
    after (stepAt 0xF175 State.reset) (fun t => t == { State.reset.withFetchWord 16 0xF175 with pc := 0x202#16 }) = true := by
  decide

/-- T3. -/
theorem test_tick :
    after (perform .tick { State.reset with dt := 1#8, st := 0xFF#8 }) (fun t => t.dt == 0#8 && t.st == 0xFE#8) = true := by
  decide

/-! ### Block transfers (M1 to M16) and the errors (E3 to E5) -/

/-- S3. -/
theorem test_ldB :
    after (stepAt 0xF033 { start [(0, 123)] with i := 0x0FF0#16 }) (fun t =>
      t.mem.readBytes 0xFF0 4 == [1#8, 2#8, 3#8, 0#8] && t.i == 0x0FF0#16) = true := by
  decide

/-- S10 (a). -/
theorem test_ldB_outside :
    failed (stepAt 0xF033 { start [(0, 123)] with i := 0x0FFE#16 }) .memoryOutOfBounds (fun t =>
      t.mem.readBytes 0xFFE 2 == [0#8, 0#8] && t.i == 0x0FFE#16 && t.pc == 0x202#16) = true := by
  decide

/-- M8. -/
theorem test_ldMemVx :
    after (stepAt 0xF255 { start [(0, 0x11), (1, 0x22), (2, 0x33), (3, 0x44)] with i := 0x400#16 }) (fun t =>
      t.mem.readBytes 0x400 4 == [0x11#8, 0x22#8, 0x33#8, 0#8] && t.i == 0x400#16) = true := by
  decide

/-- M10: no byte written. -/
theorem test_ldMemVx_outside :
    failed (stepAt 0xF155 { start [(0, 0x77)] with i := 0x0FFF#16 }) .memoryOutOfBounds (fun t =>
      t.mem.read 0xFFF == 0#8) = true := by
  decide

/-- M12. -/
theorem test_ldVxMem :
    after (stepAt 0xF265 (startMem 0x400 [(3, 1)] 0x400 [0xAA, 0xBB, 0xCC, 0xDD])) (fun t =>
      holds t [(0, 0xAA), (1, 0xBB), (2, 0xCC), (3, 1)] && t.i == 0x400#16) = true := by
  decide

/-- M15: the first font byte. -/
theorem test_ldVxMem_font :
    after (stepAt 0xF065 State.reset) (fun t => holds t [(0, 0xF0)]) = true := by
  decide

/-! ### Witnesses: a concrete state and operands for the hypotheses of each statement, clause by clause at the boundaries -/

/-- A state at a word. -/
def placed (w : Nat) (s : State) : State := s.withFetchWord 16 w

theorem witness_DecodeEncodeRoundTrip :
    ([Instr.sys 0x0E1#12, .nop8 0x1#4 0x2#4 0xF#4, .nopE 0x0#4 0xFF#8, .nopF 0xF#4 0x00#8,
      .drw 0xF#4 0xF#4 0xF#4].all Instr.wellFormed) = true := by decide

theorem witness_StepRunsDecodedInstruction_first :
    (Instr.drw 0x1#4 0x2#4 0x3#4).wellFormed = true ∧ (placed 0xD123 State.reset).pc.toNat % 2 = 0 ∧
    (placed 0xD123 State.reset).pc.toNat + 2 ≤ 4096 ∧
    [(placed 0xD123 State.reset).mem.read 0x200, (placed 0xD123 State.reset).mem.read 0x201] =
      encodeBytes (.drw 0x1#4 0x2#4 0x3#4) := by decide

theorem witness_StepRunsDecodedInstruction_last :
    (Instr.jp 0xFFE#12).wellFormed = true ∧ (0x0FFE#16).toNat % 2 = 0 ∧ (0x0FFE#16).toNat + 2 ≤ 4096 ∧
    [(placed 0x1FFE { State.reset with pc := 0x0FFE#16 }).mem.read 0xFFE,
     (placed 0x1FFE { State.reset with pc := 0x0FFE#16 }).mem.read 0xFFF] = encodeBytes (.jp 0xFFE#12) := by
  decide

/-- FetchErrorsChangeNothing: odd below and above 4096, even at 4096; 0x0FFE falls under neither clause. -/
theorem witness_FetchErrorsChangeNothing :
    (0x0FFF#16).toNat % 2 = 1 ∧ (0x1001#16).toNat % 2 = 1 ∧
    ((0x1000#16).toNat % 2 = 0 ∧ 4096 ≤ (0x1000#16).toNat) ∧
    ((0x0FFE#16).toNat % 2 = 0 ∧ ¬ 4096 ≤ (0x0FFE#16).toNat) := by decide

theorem witness_PlacedWordRunsNext :
    State.reset.fetchable ∧ ({ State.reset with pc := 0x0FFE#16 } : State).fetchable :=
  ⟨⟨by decide, by decide⟩, ⟨by decide, by decide⟩⟩

/-- MemReadReturnsBytesInOrder: 4095 + 1 and 4096 + 0 are inside, 4095 + 2 and 4097 + 0 outside. -/
theorem witness_MemReadReturnsBytesInOrder :
    completes (memRead 4095 1 State.reset fun bytes => if bytes = [0#8] then .next State.reset
      else raise .stackOverflow State.reset) = true ∧
    completes (memRead 4096 0 State.reset fun _ => .next State.reset) = true ∧
    4096 < 4095 + 2 ∧ 4096 < 4097 + 0 := by decide

/-- MemWriteChangesOnlyItsBytes: the same boundaries. -/
theorem witness_MemWriteChangesOnlyItsBytes :
    completes (memWrite 4095 [0x77#8] State.reset) = true ∧ completes (memWrite 4096 [] State.reset) = true ∧
    failed (memWrite 4095 [0x77#8, 0x78#8] State.reset) .memoryOutOfBounds (fun t => t == State.reset) = true ∧
    failed (memWrite 4097 [] State.reset) .memoryOutOfBounds (fun t => t == State.reset) = true := by decide

/-- CanonicalMemoriesAreEqualWhenTheyReadAlike: two writes in either order. -/
theorem witness_CanonicalMemoriesAreEqualWhenTheyReadAlike :
    (Memory.writeBytes [] 0x300 [5#8, 6#8]).wf = true ∧
    (Memory.write (Memory.write [] 0x301 6#8) 0x300 5#8).wf = true ∧
    ∀ a, Memory.read (Memory.writeBytes [] 0x300 [5#8, 6#8]) a =
      Memory.read (Memory.write (Memory.write [] 0x301 6#8) 0x300 5#8) a :=
  ⟨by decide, by decide, fun a => by
    simp only [Memory.writeBytes, Memory.read_write]
    by_cases h : a = 768 <;> by_cases h' : a = 769 <;> simp_all⟩

/-- StoreIsSeenByTheNextFetch: LD [I], V2 from one byte below the next word, and LD B onto its second byte only,
at the last place where that word can be fetched. -/
theorem witness_StoreIsSeenByTheNextFetch_block : ∃ s t : State,
    s.pc.toNat % 2 = 0 ∧ s.pc.toNat + 4 ≤ 4096 ∧ step s = .next t ∧ s.current = .ldMemVx 0x2#4 ∧
    [0x11#8, 0x62#8, 0x33#8].length = (0x2#4).toNat + 1 ∧
    ∀ k : Nibble, k.toNat ≤ (0x2#4).toNat → [0x11#8, 0x62#8, 0x33#8][k.toNat]? = some (s.reg k) := by
  obtain ⟨t, h⟩ := exists_next
    (r := stepAt 0xF255 { start [(0, 0x11), (1, 0x62), (2, 0x33)] with i := 0x201#16 }) (by decide)
  exact ⟨_, t, by decide, by decide, h, by decide, by decide, by decide⟩

theorem witness_StoreIsSeenByTheNextFetch_digits : ∃ s t : State,
    s.pc.toNat % 2 = 0 ∧ s.pc.toNat + 4 ≤ 4096 ∧ step s = .next t ∧ s.current = .ldB 0x0#4 ∧
    [2#8, 5#8, 4#8].map BitVec.toNat =
      [(s.reg 0x0#4).toNat / 100, (s.reg 0x0#4).toNat / 10 % 10, (s.reg 0x0#4).toNat % 10] ∧
    s.i.toNat = s.pc.toNat + 1 := by
  obtain ⟨t, h⟩ := exists_next
    (r := stepAt 0xF033 { start [(0, 254)] with pc := 0x0FFC#16, i := 0x0FFD#16 }) (by decide)
  exact ⟨_, t, by decide, by decide, h, by decide, by decide, by decide⟩

/-! #### Invariants -/

/-- InvariantIsKeptByEveryStep, ReachableRangesAreKeptByEveryStep: a RET on a stack of 16. -/
def fullStack : State := placed 0x00EE { State.reset with sp := 16#8, stack := Vector.replicate 16 0x0222#16 }

theorem witness_InvariantIsKeptByEveryStep : fullStack.Inv ∧ ∃ t, step fullStack = .next t :=
  ⟨⟨by decide, by decide⟩, exists_next (by decide)⟩

theorem witness_ReachableRangesAreKeptByEveryStep : fullStack.InRange ∧ ∃ t, step fullStack = .next t := by
  refine ⟨⟨by decide, by decide, fun k w hk hw => ?_⟩, exists_next (by decide)⟩
  have hk' : k < 16 := hk
  have : (Vector.replicate 16 0x0222#16)[k]? = some w := hw
  simp [hk'] at this
  subst this; decide

theorem witness_InvariantsHoldAfterBoot : ∃ s, boot otherFont [0x12#8, 0x00#8] = some s := ⟨_, rfl⟩

/-- InvariantsAreKeptByEverySchedule: every kind of action, in a run that meets no error. -/
theorem witness_InvariantsAreKeptByEverySchedule : State.reset.Inv ∧ State.reset.InRange ∧
    ∃ t, runActions [.step, .tick, .keys (Vector.replicate 16 true), .random 7#8, .renderer, .step] State.reset = .next t :=
  ⟨⟨by decide, by decide⟩, ⟨by decide, by decide, fun k _ h => absurd h (Nat.not_lt_zero k)⟩,
    exists_next (by decide)⟩

theorem witness_HandlersWriteOnlyTheirParts : ∃ t, exec (.call 0x300#12) State.reset = .next t :=
  exists_next (by decide)

/-- KeysAreReadOnlyForTheCore: a step that completes and one that ends in an error. -/
theorem witness_KeysAreReadOnlyForTheCore :
    (∃ t, step State.reset = .next t) ∧ ∃ f, step (placed 0x00EE State.reset) = .fault f := by
  refine ⟨exists_next (by decide), .stackUnderflow (placed 0x00EE State.reset).advance, ?_⟩
  exact (step_of_fetchable ⟨by decide, by decide⟩).trans rfl

theorem witness_TimersChangeOnlyByTheirInstructions :
    after (stepAt 0xF515 (start [(5, 9)])) (fun t => t.dt == 9#8) = true ∧
    after (stepAt 0x6000 (start [(5, 9)])) (fun t => t.dt == 0#8 && t.st == 0#8) = true := by decide

/-- RedrawFlagIsSetByDrawAndClearOnly: a DRW that changes no pixel, a SYS, and a DRW that raises. -/
theorem witness_RedrawFlagIsSetByDrawAndClearOnly :
    after (stepAt 0xD010 State.reset) (fun t => t.redraw) = true ∧
    after (stepAt 0x0000 State.reset) (fun t => !t.redraw) = true ∧
    failed (stepAt 0xD017 { State.reset with i := 0x0FFA#16 }) .memoryOutOfBounds (fun t => !t.redraw) = true := by
  decide

theorem witness_StackChangesOnlyByCallAndReturn :
    after (stepAt 0x2ABC { State.reset with sp := 15#8 }) (fun t => t.sp == 16#8 && t.stackAt 15 == some 0x202#16) = true ∧
    after (stepAt 0x00EE fullStack) (fun t => t.sp == 15#8 && t.stackAt 15 == some 0x222#16) = true ∧
    after (stepAt 0x6000 fullStack) (fun t => t.sp == 16#8) = true := by decide

/-- MemoryChangesOnlyByBlockStores: each of the two stores changes a byte. -/
theorem witness_MemoryChangesOnlyByBlockStores :
    after (stepAt 0xF033 { start [(0, 123)] with i := 0x0FFD#16 }) (fun t => t.mem.read 0xFFF != 0#8) = true ∧
    after (stepAt 0xFF55 { start [(15, 7)] with i := 0x0FF0#16 }) (fun t => t.mem.read 0xFFF != 0#8) = true := by
  decide

/-! #### Errors -/

/-- ErrorsCarryTheStateOfTheRule: an error of the fetch and one of a handler. -/
theorem witness_ErrorsCarryTheStateOfTheRule :
    failed (step { State.reset with pc := 0x0201#16 }) .invalidAddress (fun t => t.pc == 0x0201#16) = true ∧
    failed (stepAt 0x00EE State.reset) .stackUnderflow (fun t => t.pc == 0x0202#16) = true := by decide

/-- StatusIsExactlyTheTableOfCauses: each status occurs, and none above 16. -/
theorem witness_StatusIsExactlyTheTableOfCauses :
    statusCode (step State.reset) = some 0 ∧
    statusCode (step { State.reset with pc := 0x1001#16 }) = some 3 ∧
    statusCode (step { State.reset with pc := 0x1000#16 }) = some 4 ∧
    statusCode (stepAt 0xF065 { State.reset with i := 0x1000#16 }) = some 4 ∧
    statusCode (stepAt 0x2ABC { State.reset with sp := 16#8 }) = some 5 ∧
    statusCode (stepAt 0x00EE State.reset) = some 6 ∧
    statusCode (stepAt 0x00EE { State.reset with sp := 17#8 }) = none := by decide

theorem witness_EveryWordRunsOrRaisesItsError : fullStack.sp.toNat ≤ 16 := by decide

/-! #### Control flow -/

/-- UnmappedWordsAreNoOps: a fetchable state at a word of each of the four families. -/
theorem witness_UnmappedWordsAreNoOps :
    (placed 0x0000 State.reset).fetchable ∧
    (fieldOP (fetchedWord (placed 0x0123 State.reset)) = 0x0#4 ∧
      fieldNN (fetchedWord (placed 0x0123 State.reset)) ∉ [0xE0#8, 0xEE#8]) ∧
    (fieldOP (fetchedWord (placed 0x8128 State.reset)) = 0x8#4 ∧
      fieldN (fetchedWord (placed 0x8128 State.reset)) ∈ [0x8#4, 0x9#4, 0xA#4, 0xB#4, 0xC#4, 0xD#4, 0xF#4]) ∧
    (fieldOP (fetchedWord (placed 0xE100 State.reset)) = 0xE#4 ∧
      fieldNN (fetchedWord (placed 0xE100 State.reset)) ∉ [0x9E#8, 0xA1#8]) ∧
    (fieldOP (fetchedWord (placed 0xF1FF State.reset)) = 0xF#4 ∧
      fieldNN (fetchedWord (placed 0xF1FF State.reset)) ∉
        [0x07#8, 0x0A#8, 0x15#8, 0x18#8, 0x1E#8, 0x29#8, 0x33#8, 0x55#8, 0x65#8]) :=
  ⟨⟨by decide, by decide⟩, by decide, by decide, by decide, by decide⟩

/-- ReturnPopsTheTopEntry: `SP` 0, 1, 16 and 17, one clause each. -/
theorem witness_ReturnPopsTheTopEntry :
    (0#8).toNat = 0 ∧ (1 ≤ (1#8).toNat ∧ (1#8).toNat ≤ 16) ∧ (1 ≤ (16#8).toNat ∧ (16#8).toNat ≤ 16) ∧
    16 < (17#8).toNat := by decide

/-- CallPushesTheReturnAddress: `SP` 15 pushes, 16 and 255 overflow. -/
theorem witness_CallPushesTheReturnAddress :
    completes (exec (.call 0x300#12) { State.reset with sp := 15#8 }) = true ∧
    failed (exec (.call 0x300#12) { State.reset with sp := 16#8 }) .stackOverflow (fun t => t.sp == 16#8) = true ∧
    failed (exec (.call 0x300#12) { State.reset with sp := 255#8 }) .stackOverflow (fun t => t.sp == 255#8) = true := by
  decide

theorem witness_ReturnResumesAfterTheCall : ∃ t u : State, exec (.call 0x300#12) State.reset = .next t ∧
    u.sp = t.sp ∧ ∀ k, u.stackAt k = t.stackAt k := by
  obtain ⟨t, h⟩ := exists_next (r := exec (.call 0x300#12) State.reset) (by decide)
  exact ⟨t, t, h, rfl, fun _ => rfl⟩

/-- SixteenNestedCallsSucceed: an empty stack, sixteen targets and seventeen. -/
theorem witness_SixteenNestedCallsSucceed :
    State.reset.sp.toNat = 0 ∧ (List.replicate 16 (0x200#12 : Addr)).length ≤ 16 ∧
    (List.replicate 17 (0x200#12 : Addr)).length = 17 := by decide

theorem witness_SelfJumpIsAFixedPoint : (placed 0x1200 State.reset).atSelfJump :=
  ⟨⟨by decide, by decide⟩, by decide⟩

/-! #### Registers, display, keys -/

/-- The words of a row's mask in AddImmediateSetsNoFlag, ClearScreenZeroesEveryPixel, DecimalDigitsAreStored. -/
theorem witness_masks :
    0x7056#16 &&& 0xF000#16 = 0x7000#16 ∧ 0x0AE0#16 &&& 0xF0FF#16 = 0x00E0#16 ∧
    0xFF33#16 &&& 0xF0FF#16 = 0xF033#16 := by decide

/-- AddSetsCarry, SubtractSetsNotBorrow: a destination that is not `VF`, and one that is. -/
theorem witness_AddSetsCarry_SubtractSetsNotBorrow : (0x1 : Nibble) ≠ 0xF#4 ∧ ¬ (0xF : Nibble) ≠ 0xF#4 := by
  decide

/-- ShiftsMoveOneBitToTheFlag: both values of SHIFT_SRC. -/
theorem witness_ShiftsMoveOneBitToTheFlag :
    State.reset.params.shiftSrc = .x ∧
    ({ State.reset with params := ⟨.y, .clip, .highest⟩ } : State).params.shiftSrc = .y := by decide

theorem witness_RandomAllowsEveryByteUnderTheMask : 0x07#8 &&& ~~~0x0F#8 = 0#8 := by decide

/-- DrawXorsTheSprite: `I + N` at 4096 and 4097; `SpriteCovers` holds of one pixel and not of its neighbour. -/
theorem witness_DrawXorsTheSprite :
    completes (exec (.drw 0x0#4 0x1#4 0x6#4) { State.reset with i := 0x0FFA#16 }) = true ∧
    failed (exec (.drw 0x0#4 0x1#4 0x7#4) { State.reset with i := 0x0FFA#16 }) .memoryOutOfBounds
      (fun t => t.i == 0x0FFA#16) = true ∧
    completes (exec (.drw 0x0#4 0x1#4 0x0#4) { State.reset with i := 0x1000#16 }) = true := by decide

theorem witness_DrawXorsTheSprite_covers :
    SpriteCovers State.reset 0x0#4 0x1#4 0x5#4 0 0 ∧ ¬ SpriteCovers State.reset 0x0#4 0x1#4 0x5#4 4 0 := by
  constructor
  · exact ⟨0, 0, by decide, by decide, by decide, by decide, by decide⟩
  · rintro ⟨r, c, hr, hc, hb, hx, hy⟩
    have h0 : (State.reset.reg 0x0#4).toNat % 64 + c = 4 := hx
    have h1 : (State.reset.reg 0x1#4).toNat % 32 + r = 0 := hy
    have hc4 : c = 4 := by rw [show (State.reset.reg 0x0#4).toNat % 64 = 0 by decide] at h0; omega
    have hr0 : r = 0 := by rw [show (State.reset.reg 0x1#4).toNat % 32 = 0 by decide] at h1; omega
    subst hc4; subst hr0
    exact absurd hb (by decide)

/-- The state a draw of one glyph row leaves, for the second draw. -/
theorem witness_DrawingTwiceRestoresTheDisplay : ∃ t u : State, (0x0 : Nibble) ≠ 0xF#4 ∧ (0x1 : Nibble) ≠ 0xF#4 ∧
    exec (.drw 0x0#4 0x1#4 0x1#4) State.reset = .next t ∧ exec (.drw 0x0#4 0x1#4 0x1#4) t = .next u := by
  obtain ⟨b, e⟩ | ⟨b, _⟩ := exec_drw_cases State.reset 0x0#4 0x1#4 0x1#4
  · obtain ⟨b', e'⟩ | ⟨b', _⟩ := exec_drw_cases
      { State.reset.setFlag (State.reset.drawn 0x0#4 0x1#4 0x1#4).2 with
        disp := (State.reset.drawn 0x0#4 0x1#4 0x1#4).1, redraw := true } 0x0#4 0x1#4 0x1#4
    · exact ⟨_, _, by decide, by decide, e, e'⟩
    · exact absurd b' (by decide)
  · exact absurd b (by decide)

/-- KeySkipsTestOneKey: `V4` = 0x1A looks at key 10. -/
theorem witness_KeySkipsTestOneKey : (0xA : Nibble).toNat = ((start [(4, 0x1A)]).reg 0x4#4).toNat % 16 := by decide

/-- KeyWaitReportsAPressedKey: no key, and two keys under both values of KEYWAIT_PICK. -/
theorem witness_KeyWaitReportsAPressedKey :
    (∀ k, State.reset.key k = false) ∧
    (∃ k, ({ State.reset with keys := (State.reset.keys.set 3 true).set 9 true } : State).key k = true) ∧
    State.reset.params.keywaitPick = .highest ∧
    ({ State.reset with params := ⟨.x, .clip, .lowest⟩ } : State).params.keywaitPick = .lowest :=
  ⟨by decide, ⟨0x3#4, by decide⟩, by decide, by decide⟩

theorem witness_KeyWaitIsAFixedPointWithoutKeys : (placed 0xF30A State.reset).fetchable ∧
    (placed 0xF30A State.reset).current = .ldVxK 0x3#4 ∧ ∀ k, (placed 0xF30A State.reset).key k = false :=
  ⟨⟨by decide, by decide⟩, by decide, by decide⟩

/-! #### Block transfers and the image -/

/-- DecimalDigitsAreStored: the last address that fits and the first that does not. -/
theorem witness_DecimalDigitsAreStored :
    completes (exec (.ldB 0x0#4) { State.reset with i := 0x0FFD#16 }) = true ∧
    failed (exec (.ldB 0x0#4) { State.reset with i := 0x0FFE#16 }) .memoryOutOfBounds (fun _ => true) = true := by
  decide

/-- RegisterRangeIsStored, RegisterRangeIsLoaded: `I + X + 1` at 4096 and 4097, the whole file and one register. -/
theorem witness_RegisterRange :
    completes (exec (.ldMemVx 0xF#4) { State.reset with i := 0x0FF0#16 }) = true ∧
    failed (exec (.ldMemVx 0xF#4) { State.reset with i := 0x0FF1#16 }) .memoryOutOfBounds (fun _ => true) = true ∧
    completes (exec (.ldVxMem 0x0#4) { State.reset with i := 0x0FFF#16 }) = true ∧
    failed (exec (.ldVxMem 0x0#4) { State.reset with i := 0x1000#16 }) .memoryOutOfBounds (fun _ => true) = true := by
  decide

theorem witness_LoadInvertsStore : ∃ s t u : State, exec (.ldMemVx 0x2#4) s = .next t ∧ u.i = s.i ∧
    ∀ a, u.mem.read a = t.mem.read a := by
  obtain ⟨t, h⟩ := exists_next (r := exec (.ldMemVx 0x2#4) { start [(0, 1), (1, 2), (2, 3)] with i := 0x0500#16 }) (by decide)
  exact ⟨_, t, { t with i := 0x0500#16 }, h, rfl, fun _ => rfl⟩

/-- DefaultFontIsTheTable: a register that holds the last digit. -/
theorem witness_DefaultFontIsTheTable : (start [(3, 0x0F)]).reg 0x3#4 = (0xF : Nibble).setWidth 8 := by decide

/-- ImageIsLoadedAtTheEntryPoint: the largest image, an image of one word, the smallest one rejected. -/
theorem witness_ImageIsLoadedAtTheEntryPoint :
    (List.replicate 3584 (0#8 : Byte)).length ≤ 3584 ∧ 2 ≤ [0x12#8, 0x00#8].length ∧
    3584 < (List.replicate 3585 (0#8 : Byte)).length :=
  ⟨Nat.le_of_eq List.length_replicate, by decide,
    Nat.lt_of_lt_of_eq (Nat.lt_succ_self 3584) List.length_replicate.symm⟩

/-- SafeRun holds of a run. -/
theorem witness_SafeRun : SafeRun [.step, .tick, .step] State.reset := exists_next (by decide)

end Sys2Proof.Tests
end

section
/-! PROOF. The frame of every handler, field by field: which fields of `State` an instruction that completes may change.
The frame statements (10_state.md R21 to R32) and both invariants (R34, R35) are read off it. -/

namespace Sys2Proof.Machine

/-! ### Fields kept -/

/-- The field form of `Part.same`: the part is the same data in both states. Memory in its canonical form needs
this form, since equal reads do not give equal lists. -/
def Part.kept : Part → State → State → Prop
  | .regs, s, t => t.v = s.v
  | .index, s, t => t.i = s.i
  | .pc, s, t => t.pc = s.pc
  | .sp, s, t => t.sp = s.sp
  | .stack, s, t => t.stack = s.stack
  | .mem, s, t => t.mem = s.mem
  | .dt, s, t => t.dt = s.dt
  | .st, s, t => t.st = s.st
  | .disp, s, t => t.disp = s.disp
  | .redraw, s, t => t.redraw = s.redraw
  | .keys, s, t => t.keys = s.keys
  | .params, s, t => t.params = s.params
  | .random, s, t => t.rndInput = s.rndInput ∧ t.rndDraws = s.rndDraws

/-- Every part outside `changed` is the same data. -/
def KeptBut (changed : List Part) (s t : State) : Prop := ∀ p, p ∉ changed → p.kept s t

theorem Part.same_of_kept {p : Part} {s t : State} (h : p.kept s t) : p.same s t := by
  cases p <;> simp_all [Part.kept, Part.same, State.reg, State.stackAt, State.pixel, State.key]

theorem KeptBut.sameBut {ps : List Part} {s t : State} (h : KeptBut ps s t) : SameBut ps s t :=
  fun p hp => Part.same_of_kept (h p hp)

theorem KeptBut.refl (ps : List Part) (s : State) : KeptBut ps s s := by
  intro p _; cases p <;> simp [Part.kept]

theorem KeptBut.mono {ps qs : List Part} {s t : State} (h : KeptBut ps s t) (hsub : ps ⊆ qs) :
    KeptBut qs s t := fun p hp => h p fun hmem => hp (hsub hmem)

/-! ### What each operation on the state keeps -/

section
variable (s : State) (x : Nibble) (b : Byte) (w : Word)

theorem keptBut_setReg : KeptBut [.regs] s (s.setReg x b) := by
  intro p hp; cases p <;> simp_all [Part.kept]

theorem keptBut_setResultThenFlag (f : Bool) : KeptBut [.regs] s (s.setResultThenFlag x b f) := by
  intro p hp; cases p <;> simp_all [Part.kept]

theorem keptBut_setRegs (bs : List Byte) : KeptBut [.regs] s (State.setRegs x bs s) := by
  obtain ⟨v, hv⟩ := setRegs_eq x bs s
  rw [hv]; intro p hp; cases p <;> simp_all [Part.kept]

theorem keptBut_setReg_consumeRandom : KeptBut [.regs, .random] s (s.consumeRandom.setReg x b) := by
  intro p hp; cases p <;> simp_all [Part.kept]

theorem keptBut_setFlag_draw (f : Bool) (d : Display) :
    KeptBut [.regs, .disp, .redraw] s { s.setFlag f with disp := d, redraw := true } := by
  intro p hp; cases p <;> simp_all [Part.kept]

theorem keptBut_skipIf (c : Bool) : KeptBut [.pc] s (s.skipIf c) := by
  intro p hp; cases p <;> simp_all [Part.kept]

theorem keptBut_pc : KeptBut [.pc] s { s with pc := w } := by
  intro p hp; cases p <;> simp_all [Part.kept]

theorem keptBut_index : KeptBut [.index] s { s with i := w } := by
  intro p hp; cases p <;> simp_all [Part.kept]

theorem keptBut_dt : KeptBut [.dt] s { s with dt := b } := by
  intro p hp; cases p <;> simp_all [Part.kept]

theorem keptBut_st : KeptBut [.st] s { s with st := b } := by
  intro p hp; cases p <;> simp_all [Part.kept]

theorem keptBut_mem (m : Memory) : KeptBut [.mem] s { s with mem := m } := by
  intro p hp; cases p <;> simp_all [Part.kept]

theorem keptBut_disp_redraw (d : Display) (f : Bool) :
    KeptBut [.disp, .redraw] s { s with disp := d, redraw := f } := by
  intro p hp; cases p <;> simp_all [Part.kept]

theorem keptBut_pop : KeptBut [.pc, .sp] s { s with sp := b, pc := w } := by
  intro p hp; cases p <;> simp_all [Part.kept]

theorem keptBut_push (st : Vector Word 16) :
    KeptBut [.pc, .sp, .stack] s { s with stack := st, sp := b, pc := w } := by
  intro p hp; cases p <;> simp_all [Part.kept]

end

/-! ### The handlers that can stop: what completion says -/

section
variable {s t : State} {x y n ign : Nibble} {nnn : Addr}

theorem exec_call_next (h : exec (.call nnn) s = .next t) : ∃ hlt : s.sp.toNat < 16,
    t = { s with stack := s.stack.set s.sp.toNat s.pc hlt, sp := s.sp + 1#8, pc := addrWord nnn } := by
  obtain ⟨hlt, e⟩ | ⟨_, e⟩ := exec_call_cases s nnn <;> rw [e] at h <;> cases h
  exact ⟨hlt, rfl⟩

theorem exec_ret_next (h : exec (.ret ign) s = .next t) : 1 ≤ s.sp.toNat ∧ s.sp.toNat ≤ 16 ∧
    ∃ w, s.stackAt (s.sp.toNat - 1) = some w ∧ t = { s with sp := s.sp - 1#8, pc := w } := by
  obtain ⟨_, e⟩ | ⟨h1, h16, w, hw, e⟩ | ⟨_, e⟩ := exec_ret_cases s ign <;> rw [e] at h <;> cases h
  exact ⟨h1, h16, w, hw, rfl⟩

theorem exec_ldVxK_next (h : exec (.ldVxK x) s = .next t) : t = s.rewind ∨ ∃ b, t = s.setReg x b := by
  obtain ⟨_, e⟩ | ⟨k, _, e⟩ := exec_ldVxK_cases s x <;> rw [e] at h <;> cases h
  · exact .inl rfl
  · exact .inr ⟨_, rfl⟩

theorem exec_ldB_next (h : exec (.ldB x) s = .next t) : s.i.toNat + 3 ≤ 4096 ∧
    t = { s with mem := s.mem.writeBytes s.i.toNat (decimalDigits (s.reg x)) } := by
  obtain ⟨hle, e⟩ | ⟨_, e⟩ := exec_ldB_cases s x <;> rw [e] at h <;> cases h
  exact ⟨hle, rfl⟩

theorem exec_ldMemVx_next (h : exec (.ldMemVx x) s = .next t) : s.i.toNat + x.toNat + 1 ≤ 4096 ∧
    t = { s with mem := s.mem.writeBytes s.i.toNat (s.regs (x.toNat + 1)) } := by
  obtain ⟨hle, e⟩ | ⟨_, e⟩ := exec_ldMemVx_cases s x <;> rw [e] at h <;> cases h
  exact ⟨hle, rfl⟩

theorem exec_ldVxMem_next (h : exec (.ldVxMem x) s = .next t) :
    t = State.setRegs 0x0#4 (s.mem.readBytes s.i.toNat (x.toNat + 1)) s := by
  obtain ⟨_, e⟩ | ⟨_, e⟩ := exec_ldVxMem_cases s x <;> rw [e] at h <;> cases h
  rfl

theorem exec_drw_next (h : exec (.drw x y n) s = .next t) :
    t = { s.setFlag (s.drawn x y n).2 with disp := (s.drawn x y n).1, redraw := true } := by
  obtain ⟨_, e⟩ | ⟨_, e⟩ := exec_drw_cases s x y n <;> rw [e] at h <;> cases h
  rfl

end

/-! ### The frame of the 38 instructions -/

/-- From `s` to `t` only the general registers and the parts change that the instruction may write. -/
structure Framed (i : Instr) (s t : State) : Prop where
  reg : ∀ r, i.mayWriteReg r = false → t.reg r = s.reg r
  kept : KeptBut (.regs :: i.mayWrite) s t

/-- The general registers have their own clause, so no `mayWrite` lists them. -/
theorem regs_notMem_mayWrite (i : Instr) : Part.regs ∉ i.mayWrite := by
  cases i <;> simp [Instr.mayWrite]

section
variable {i : Instr} {s t : State} {x : Nibble} {b : Byte}

theorem framed_of_keptBut (h : KeptBut i.mayWrite s t) : Framed i s t where
  reg r _ := reg_congr (h .regs (regs_notMem_mayWrite i)) r
  kept := h.mono (List.subset_cons_self _ _)

theorem framed_setReg (hx : ∀ r, i.mayWriteReg r = (r == x)) : Framed i s (s.setReg x b) where
  reg r hr := by simp_all
  kept := (keptBut_setReg s x b).mono (by simp)

theorem framed_setResultThenFlag {f : Bool} (hx : ∀ r, i.mayWriteReg r = (r == x || r == regF)) :
    Framed i s (s.setResultThenFlag x b f) where
  reg r hr := by simp_all
  kept := (keptBut_setResultThenFlag s x b f).mono (by simp)

theorem framed_drw {y n : Nibble} {f : Bool} {d : Display} :
    Framed (.drw x y n) s { s.setFlag f with disp := d, redraw := true } where
  reg r hr := by
    have hne : r ≠ regF := by simpa [Instr.mayWriteReg] using hr
    exact (reg_setFlag s r f).trans (if_neg hne)
  kept := keptBut_setFlag_draw s f d

theorem framed_ldVxMem {bs : List Byte} (hlen : bs.length = x.toNat + 1) :
    Framed (.ldVxMem x) s (State.setRegs 0x0#4 bs s) where
  reg r hr := by
    have hlt : x.toNat < r.toNat := by simpa [Instr.mayWriteReg] using hr
    have hx := x.isLt
    rw [reg_setRegs _ _ _ _ (by simp; omega), if_neg (by simp; omega)]
  kept := keptBut_setRegs s 0x0#4 bs

/-- What a handler writes (R21 to R32): a completing instruction keeps every register and every part that its
rule does not name. -/
theorem exec_framed (h : exec i s = .next t) : Framed i s t := by
  cases i with
  | sys _ | nop8 _ _ _ | nopE _ _ | nopF _ _ =>
    obtain rfl := Host.Outcome.next.inj h
    exact framed_of_keptBut (KeptBut.refl _ _)
  | jp _ | jpV0 _ =>
    obtain rfl := Host.Outcome.next.inj h
    exact framed_of_keptBut (keptBut_pc _ _)
  | seImm _ _ | sneImm _ _ | seReg _ _ _ | sneReg _ _ _ | skp _ | sknp _ =>
    obtain rfl := Host.Outcome.next.inj h
    exact framed_of_keptBut (keptBut_skipIf _ _)
  | ldImm _ _ | addImm _ _ | ldReg _ _ | orReg _ _ | andReg _ _ | xorReg _ _ | ldVxDT _ =>
    obtain rfl := Host.Outcome.next.inj h
    exact framed_setReg fun _ => rfl
  | addReg _ _ | subReg _ _ | subnReg _ _ | shr _ _ | shl _ _ =>
    obtain rfl := Host.Outcome.next.inj h
    exact framed_setResultThenFlag fun _ => rfl
  | ldI _ | addI _ | ldF _ =>
    obtain rfl := Host.Outcome.next.inj h
    exact framed_of_keptBut (keptBut_index _ _)
  | rnd x kk =>
    obtain rfl := Host.Outcome.next.inj h
    exact ⟨fun r hr => by simp_all [Instr.mayWriteReg], keptBut_setReg_consumeRandom _ _ _⟩
  | ldDTVx _ =>
    obtain rfl := Host.Outcome.next.inj h
    exact framed_of_keptBut (keptBut_dt _ _)
  | ldSTVx _ =>
    obtain rfl := Host.Outcome.next.inj h
    exact framed_of_keptBut (keptBut_st _ _)
  | cls _ =>
    obtain rfl := Host.Outcome.next.inj h
    exact framed_of_keptBut (keptBut_disp_redraw _ _ _)
  | call _ =>
    obtain ⟨_, rfl⟩ := exec_call_next h
    exact framed_of_keptBut (keptBut_push _ _ _ _)
  | ret _ =>
    obtain ⟨_, _, w, _, rfl⟩ := exec_ret_next h
    exact framed_of_keptBut (keptBut_pop _ _ _)
  | ldVxK x =>
    obtain rfl | ⟨b, rfl⟩ := exec_ldVxK_next h
    · exact framed_of_keptBut (keptBut_pc _ _)
    · exact framed_setReg fun _ => rfl
  | ldB x =>
    obtain ⟨_, rfl⟩ := exec_ldB_next h
    exact framed_of_keptBut (keptBut_mem _ _)
  | ldMemVx x =>
    obtain ⟨_, rfl⟩ := exec_ldMemVx_next h
    exact framed_of_keptBut (keptBut_mem _ _)
  | ldVxMem x =>
    obtain rfl := exec_ldVxMem_next h
    exact framed_ldVxMem (Memory.length_readBytes ..)
  | drw x y n =>
    obtain rfl := exec_drw_next h
    exact framed_drw

/-- A part that the instruction does not write is the same data after it. -/
theorem kept_of_exec {p : Part} (h : exec i s = .next t) (hregs : p ≠ .regs) (hp : p ∉ i.mayWrite) :
    p.kept s t :=
  (exec_framed h).kept p (by simp [hregs, hp])

end

/-- Settles O16: the frame of the completing handler, its parts compared by their reads. -/
theorem handlersWriteOnlyTheirParts : Obligations.HandlersWriteOnlyTheirParts := by
  intro i s t h
  exact ⟨(exec_framed h).reg, (exec_framed h).kept.sameBut⟩

end Sys2Proof.Machine
end

section
/-! PROOF. The invariants of 10_state.md R34 and R35 are kept by every step: one lemma per field of the invariant about
`exec`, and the statement about `step` read off them. -/

namespace Sys2Proof.Machine

/-! ### Which instructions write the stack pointer, the stack and memory -/

section
variable {i : Instr}

theorem isCall_of_stack_mem (h : Part.stack ∈ i.mayWrite) : i.isCall := by
  cases i <;> simp_all [Instr.mayWrite, Instr.isCall]

theorem isCall_or_isRet_of_sp_mem (h : Part.sp ∈ i.mayWrite) : i.isCall ∨ i.isRet := by
  cases i <;> simp_all [Instr.mayWrite, Instr.isCall, Instr.isRet]

theorem store_of_mem_mem (h : Part.mem ∈ i.mayWrite) : ∃ x, i = .ldB x ∨ i = .ldMemVx x := by
  cases i <;> simp_all [Instr.mayWrite]

/-- No rule names the keys or the parameters among what an instruction writes (R32, log 24). -/
theorem keys_params_notMem_mayWrite (i : Instr) : Part.keys ∉ i.mayWrite ∧ Part.params ∉ i.mayWrite := by
  cases i <;> simp [Instr.mayWrite]

end

section
variable {i : Instr} {s t : State}

/-! ### Memory and the stack pointer (R34) -/

/-- Only the two block stores touch memory, and they check their range first. -/
theorem exec_keeps_wf (h : exec i s = .next t) (hwf : s.mem.wf = true) : t.mem.wf = true := by
  by_cases hmem : Part.mem ∈ i.mayWrite
  · obtain ⟨x, rfl | rfl⟩ := store_of_mem_mem hmem
    · obtain ⟨hle, rfl⟩ := exec_ldB_next h
      exact Memory.wf_writeBytes _ hwf (by simpa using hle)
    · obtain ⟨hle, rfl⟩ := exec_ldMemVx_next h
      exact Memory.wf_writeBytes _ hwf (by rw [regs_length]; omega)
  · rw [kept_of_exec h (by simp) hmem]
    exact hwf

/-- CALL completes only below 16, RET only lowers `SP`. -/
theorem exec_keeps_sp_le (h : exec i s = .next t) (hsp : s.sp.toNat ≤ 16) : t.sp.toNat ≤ 16 := by
  by_cases hmem : Part.sp ∈ i.mayWrite
  · obtain ⟨nnn, rfl⟩ | ⟨ign, rfl⟩ := isCall_or_isRet_of_sp_mem hmem
    · obtain ⟨hlt, rfl⟩ := exec_call_next h
      simp only [sp_succ hlt]
      omega
    · obtain ⟨h1, h16, w, _, rfl⟩ := exec_ret_next h
      simp only [sp_pred h1]
      omega
  · rw [kept_of_exec h (by simp) hmem]
    exact hsp

/-! ### The program counter and the return addresses (R35) -/

/-- Every return address on the stack is even and in 2 .. 4096: the last clause of `State.InRange`. -/
def State.ReturnsInRange (s : State) : Prop :=
  ∀ k w, k < s.sp.toNat → s.stackAt k = some w → w.toNat % 2 = 0 ∧ 2 ≤ w.toNat ∧ w.toNat ≤ 4096

/-- A handler started with `pc` in 2 .. 4096, as the fetch leaves it, ends with `pc` at most 0x10FE, the
largest sum of JP V0 (R35, R139). -/
theorem exec_pc_le (h : exec i s = .next t) (hpc : 2 ≤ s.pc.toNat ∧ s.pc.toNat ≤ 4096)
    (hret : s.ReturnsInRange) : t.pc.toNat ≤ 0x10FE := by
  obtain ⟨hlo, hhi⟩ := hpc
  cases i with
  | jp nnn =>
    obtain rfl := Host.Outcome.next.inj h
    have := nnn.isLt
    simp only [jumpTo_pc, addrWord_toNat]
    omega
  | jpV0 nnn =>
    obtain rfl := Host.Outcome.next.inj h
    have := nnn.isLt
    have := (s.reg 0x0#4).isLt
    simp only [jumpTo_pc, BitVec.toNat_add, addrWord_toNat, byteWord_toNat]
    omega
  | seImm _ _ | sneImm _ _ | seReg _ _ _ | sneReg _ _ _ | skp _ | sknp _ =>
    obtain rfl := Host.Outcome.next.inj h
    rw [skipIf_pc]
    split <;> bv_omega
  | call nnn =>
    obtain ⟨_, rfl⟩ := exec_call_next h
    have := nnn.isLt
    simp only [addrWord_toNat]
    omega
  | ret ign =>
    obtain ⟨h1, _, w, hw, rfl⟩ := exec_ret_next h
    obtain ⟨_, _, hle⟩ := hret _ w (by omega) hw
    exact hle.trans (by decide)
  | ldVxK x =>
    obtain rfl | ⟨b, rfl⟩ := exec_ldVxK_next h
    · rw [rewind_pc]
      bv_omega
    · exact hhi.trans (by decide)
  | _ =>
    rw [kept_of_exec (p := .pc) h (by simp) (by simp [Instr.mayWrite])]
    exact hhi.trans (by decide)

/-- CALL pushes the advanced `pc`; RET and all other instructions leave the entries below the new `SP`. -/
theorem exec_keeps_returnsInRange (h : exec i s = .next t) (heven : s.pc.toNat % 2 = 0)
    (hpc : 2 ≤ s.pc.toNat ∧ s.pc.toNat ≤ 4096) (hret : s.ReturnsInRange) : t.ReturnsInRange := by
  intro k w hk hw
  by_cases hcall : i.isCall
  · obtain ⟨nnn, rfl⟩ := hcall
    obtain ⟨hlt, rfl⟩ := exec_call_next h
    simp only [sp_succ hlt] at hk
    have hw : (if k = s.sp.toNat then some s.pc else s.stackAt k) = some w := (stackAt_set hlt _ k) ▸ hw
    split at hw
    · obtain rfl := Option.some.inj hw
      exact ⟨heven, hpc⟩
    · exact hret k w (by omega) hw
  · have hstack : t.stack = s.stack := kept_of_exec (p := .stack) h (by simp) fun hmem =>
      hcall (isCall_of_stack_mem hmem)
    have hsp : t.sp.toNat ≤ s.sp.toNat := by
      by_cases hmem : Part.sp ∈ i.mayWrite
      · obtain ⟨ign, rfl⟩ := (isCall_or_isRet_of_sp_mem hmem).resolve_left hcall
        obtain ⟨h1, _, v, _, rfl⟩ := exec_ret_next h
        simp only [sp_pred h1]
        omega
      · rw [kept_of_exec h (by simp) hmem]
    rw [State.stackAt, hstack] at hw
    exact hret k w (by omega) hw

/-- The fetch hands the handler an even `pc` in 2 .. 4096 (R65, R66). -/
theorem advance_pc_range (hf : s.fetchable) :
    s.advance.pc.toNat % 2 = 0 ∧ 2 ≤ s.advance.pc.toNat ∧ s.advance.pc.toNat ≤ 4096 := by
  obtain ⟨heven, hle⟩ := hf
  rw [advance_pc]
  bv_omega

end

/-- Settles O12: memory and `SP` are kept by the fetch, and by every handler that completes. -/
theorem invariantIsKeptByEveryStep : Obligations.InvariantIsKeptByEveryStep := by
  intro s t ⟨hwf, hsp⟩ h
  obtain ⟨_, hexec⟩ := exec_of_step_next h
  exact ⟨exec_keeps_wf hexec hwf, exec_keeps_sp_le hexec hsp⟩

/-- Settles O13: the handler starts from the range the fetch check leaves (`advance_pc_range`). -/
theorem reachableRangesAreKeptByEveryStep : Obligations.ReachableRangesAreKeptByEveryStep := by
  intro s t ⟨_, hsp, hret⟩ h
  obtain ⟨hf, hexec⟩ := exec_of_step_next h
  obtain ⟨heven, hpc⟩ := advance_pc_range hf
  exact ⟨exec_pc_le hexec hpc hret, exec_keeps_sp_le hexec hsp,
    exec_keeps_returnsInRange hexec heven hpc hret⟩

end Sys2Proof.Machine
end

section
/-! PROOF. What no step touches or reads: keys and parameters (10_state.md R32), stack entries (R25, R26), and the sound
timer and the redraw flag as inputs (R29, R31). -/

namespace Sys2Proof.Machine

/-! ### Keys, parameters and the stack -/

/-- A handler raises before it writes (R213, R214): its error carries the state it was given. -/
theorem exec_fault_after {i : Instr} {s : State} {f : Fault} (h : exec i s = .fault f) : f.after = s := by
  cases i with
  | call nnn =>
    obtain ⟨_, e⟩ | ⟨_, e⟩ := exec_call_cases s nnn <;> rw [e] at h <;> cases h
    rfl
  | ret ign =>
    obtain ⟨_, e⟩ | ⟨_, _, _, _, e⟩ | ⟨_, e⟩ := exec_ret_cases s ign <;> rw [e] at h <;> cases h
    rfl
  | ldB x =>
    obtain ⟨_, e⟩ | ⟨_, e⟩ := exec_ldB_cases s x <;> rw [e] at h <;> cases h
    rfl
  | ldMemVx x =>
    obtain ⟨_, e⟩ | ⟨_, e⟩ := exec_ldMemVx_cases s x <;> rw [e] at h <;> cases h
    rfl
  | ldVxMem x =>
    obtain ⟨_, e⟩ | ⟨_, e⟩ := exec_ldVxMem_cases s x <;> rw [e] at h <;> cases h
    rfl
  | drw x y n =>
    obtain ⟨_, e⟩ | ⟨_, e⟩ := exec_drw_cases s x y n <;> rw [e] at h <;> cases h
    rfl
  | ldVxK x =>
    obtain ⟨_, e⟩ | ⟨_, _, e⟩ := exec_ldVxK_cases s x <;> rw [e] at h <;> cases h
  | _ => cases h

/-- An error leaves the state as it was, or with `pc` advanced (R214). -/
theorem step_fault_after {s : State} {f : Fault} (h : step s = .fault f) :
    f.after = s ∨ f.after = s.advance := by
  obtain ⟨_, e⟩ | ⟨_, _, e⟩ | ⟨_, e⟩ := step_cases s <;> rw [e] at h
  · cases h
    exact .inl rfl
  · cases h
    exact .inl rfl
  · exact .inr (exec_fault_after h)

/-- Settles O17: completing steps by the frame, errors by the state they carry. -/
theorem keysAreReadOnlyForTheCore : Obligations.KeysAreReadOnlyForTheCore := by
  intro s
  constructor
  · intro t h
    obtain ⟨_, hexec⟩ := exec_of_step_next h
    obtain ⟨hkeys, hparams⟩ := keys_params_notMem_mayWrite s.current
    exact ⟨kept_of_exec (p := .keys) (s := s.advance) hexec (by simp) hkeys,
      kept_of_exec (p := .params) (s := s.advance) hexec (by simp) hparams⟩
  · intro f h
    obtain e | e := step_fault_after h <;> simp [e]

/-- Settles O20: `SP` by the frame; the entries by the frame, and for CALL by the one entry it sets. -/
theorem stackChangesOnlyByCallAndReturn : Obligations.StackChangesOnlyByCallAndReturn := by
  intro s t h
  obtain ⟨_, hexec⟩ := exec_of_step_next h
  refine ⟨fun hcall hret => ?_, fun k hk => ?_⟩
  · exact kept_of_exec (p := .sp) (s := s.advance) hexec (by simp) fun hmem =>
      (isCall_or_isRet_of_sp_mem hmem).elim hcall hret
  · by_cases hcall : s.current.isCall
    · have hne : k ≠ s.sp.toNat := hk.resolve_left (not_not_intro hcall)
      obtain ⟨nnn, hi⟩ := hcall
      rw [hi] at hexec
      obtain ⟨hlt, rfl⟩ := exec_call_next hexec
      exact (stackAt_set hlt _ k).trans (if_neg hne)
    · have hstack : t.stack = s.stack := kept_of_exec (p := .stack) (s := s.advance) hexec (by simp)
        fun hmem => hcall (isCall_of_stack_mem hmem)
      rw [State.stackAt, hstack, State.stackAt]

/-! ### The sound timer and the redraw flag as inputs -/

/-- The state with another sound timer and redraw flag. -/
def State.withSoundRedraw (sound : Byte) (flag : Bool) (s : State) : State :=
  { s with st := sound, redraw := flag }

/-- An error with its state changed. -/
def Fault.mapState (g : State → State) : Fault → Fault
  | .invalidAddress s => .invalidAddress (g s)
  | .memoryOutOfBounds s => .memoryOutOfBounds (g s)
  | .stackOverflow s => .stackOverflow (g s)
  | .stackUnderflow s => .stackUnderflow (g s)

/-- An answer with the state it carries changed. -/
def mapState (g : State → State) : Result → Result
  | .next s => .next (g s)
  | .fault f => .fault (f.mapState g)
  | .refused r => .refused r

section
variable (sound : Byte) (flag : Bool) (s : State)

theorem keptBut_withSoundRedraw : KeptBut [.st, .redraw] s (s.withSoundRedraw sound flag) := by
  intro p hp; cases p <;> simp_all [Part.kept, State.withSoundRedraw]

theorem agreeBut_mapState (r : Result) :
    AgreeBut [.st, .redraw] r (mapState (State.withSoundRedraw sound flag) r) := by
  cases r with
  | next t => exact (keptBut_withSoundRedraw sound flag t).sameBut
  | fault f => cases f <;> exact ⟨rfl, (keptBut_withSoundRedraw sound flag _).sameBut⟩
  | refused r => rfl

/-- The second answer is the first with another sound timer and redraw flag in its state. -/
def SoundRedrawApart (r r' : Result) : Prop :=
  ∃ sound flag, r' = mapState (State.withSoundRedraw sound flag) r

/-! What each shared operation does when the two fields hold other values. -/

theorem skipIf_withSoundRedraw (c : Bool) :
    (s.withSoundRedraw sound flag).skipIf c = (s.skipIf c).withSoundRedraw sound flag := by
  cases c <;> rfl

theorem setRegs_withSoundRedraw (x : Nibble) (bs : List Byte) :
    State.setRegs x bs (s.withSoundRedraw sound flag) =
      (State.setRegs x bs s).withSoundRedraw sound flag := by
  induction bs generalizing x s with
  | nil => rfl
  | cons b bs ih => exact ih (s.setReg x b) (x + 1#4)

theorem consumeRandom_withSoundRedraw :
    (s.withSoundRedraw sound flag).consumeRandom = s.consumeRandom.withSoundRedraw sound flag := by
  unfold State.consumeRandom State.withSoundRedraw
  dsimp only
  split <;> rfl

theorem memRead_soundRedrawApart (addr n : Nat) {body body' : List Byte → Result}
    (h : ∀ bytes, SoundRedrawApart (body bytes) (body' bytes)) :
    SoundRedrawApart (memRead addr n s body) (memRead addr n (s.withSoundRedraw sound flag) body') := by
  by_cases hle : addr + n ≤ 4096
  · rw [memRead_of_le hle, memRead_of_le hle]
    exact h _
  · rw [memRead_of_gt (Nat.lt_of_not_le hle), memRead_of_gt (Nat.lt_of_not_le hle)]
    exact ⟨sound, flag, rfl⟩

theorem memWrite_soundRedrawApart (addr : Nat) (bytes : List Byte) :
    SoundRedrawApart (memWrite addr bytes s) (memWrite addr bytes (s.withSoundRedraw sound flag)) := by
  refine ⟨sound, flag, ?_⟩
  by_cases hle : addr + bytes.length ≤ 4096
  · rw [memWrite_of_le hle, memWrite_of_le hle]
    rfl
  · rw [memWrite_of_gt (Nat.lt_of_not_le hle), memWrite_of_gt (Nat.lt_of_not_le hle)]
    rfl

theorem pushAndJump_soundRedrawApart (target : Word) :
    SoundRedrawApart (pushAndJump target s) (pushAndJump target (s.withSoundRedraw sound flag)) := by
  refine ⟨sound, flag, ?_⟩
  by_cases hlt : s.sp.toNat < 16
  · rw [pushAndJump_of_lt hlt]
    exact pushAndJump_of_lt (s := s.withSoundRedraw sound flag) hlt target
  · rw [pushAndJump_of_ge (Nat.le_of_not_lt hlt)]
    exact pushAndJump_of_ge (s := s.withSoundRedraw sound flag) (Nat.le_of_not_lt hlt) target

theorem popAndJump_soundRedrawApart :
    SoundRedrawApart (popAndJump s) (popAndJump (s.withSoundRedraw sound flag)) := by
  refine ⟨sound, flag, ?_⟩
  have hsp : (s.withSoundRedraw sound flag).sp = s.sp := rfl
  have htop : ∀ k, (s.withSoundRedraw sound flag).stackAt k = s.stackAt k := fun _ => rfl
  by_cases h0 : s.sp = 0#8
  · rw [popAndJump, popAndJump, if_pos h0, if_pos (hsp.trans h0)]
    rfl
  · rw [popAndJump, popAndJump, if_neg h0, if_neg (hsp ▸ h0), htop, hsp]
    cases s.stackAt (s.sp - 1#8).toNat <;> rfl

end

/-- What a handler answers does not depend on the sound timer and the redraw flag it is given, beyond the
two fields themselves: CLS and DRW set the flag, LD ST the timer, every other handler passes them on. -/
theorem exec_soundRedrawApart (i : Instr) (sound : Byte) (flag : Bool) (s : State) :
    SoundRedrawApart (exec i s) (exec i (s.withSoundRedraw sound flag)) := by
  cases i with
  | cls _ => exact ⟨sound, true, rfl⟩
  | ldSTVx x => exact ⟨s.reg x, flag, rfl⟩
  | drw x y n =>
    simp only [exec, execDrw]
    refine memRead_soundRedrawApart sound flag s _ _ fun rows => ?_
    exact ⟨sound, true, rfl⟩
  | ldVxMem x =>
    simp only [exec, execLdVxMem]
    refine memRead_soundRedrawApart sound flag s _ _ fun bytes => ?_
    exact ⟨sound, flag, congrArg Host.Outcome.next (setRegs_withSoundRedraw sound flag s _ bytes)⟩
  | ldB _ | ldMemVx _ => exact memWrite_soundRedrawApart _ _ _ _ _
  | call _ => exact pushAndJump_soundRedrawApart _ _ _ _
  | ret _ => exact popAndJump_soundRedrawApart _ _ _
  | seImm _ _ | sneImm _ _ | seReg _ _ _ | sneReg _ _ _ | skp _ | sknp _ =>
    exact ⟨sound, flag, congrArg Host.Outcome.next (skipIf_withSoundRedraw sound flag s _)⟩
  | rnd x kk =>
    exact ⟨sound, flag, congrArg (fun t : State => Host.Outcome.next (t.setReg x (s.randomByte &&& kk)))
      (consumeRandom_withSoundRedraw sound flag s)⟩
  | ldVxK x =>
    refine ⟨sound, flag, ?_⟩
    have hkey : (s.withSoundRedraw sound flag).reportedKey = s.reportedKey := rfl
    simp only [exec, execLdVxK, hkey]
    cases s.reportedKey <;> rfl
  | _ => exact ⟨sound, flag, rfl⟩

/-- The fetch reads `pc` and memory alone, so a step is as little dependent on the two fields. -/
theorem step_soundRedrawApart (sound : Byte) (flag : Bool) (s : State) :
    SoundRedrawApart (step s) (step (s.withSoundRedraw sound flag)) := by
  obtain ⟨hodd, e⟩ | ⟨heven, hge, e⟩ | ⟨hf, e⟩ := step_cases s <;> rw [e]
  · exact ⟨sound, flag, fetchThen_of_odd (s := s.withSoundRedraw sound flag) hodd _⟩
  · exact ⟨sound, flag, fetchThen_of_outside (s := s.withSoundRedraw sound flag) heven hge _⟩
  · rw [step_of_fetchable (s := s.withSoundRedraw sound flag) hf]
    exact exec_soundRedrawApart s.current sound flag s.advance

/-- Settles O22: answers that differ in the two fields alone agree on everything else. -/
theorem soundTimerAndRedrawAreNeverRead : Obligations.SoundTimerAndRedrawAreNeverRead := by
  intro s sound flag
  obtain ⟨sound', flag', e⟩ := step_soundRedrawApart sound flag s
  exact e ▸ agreeBut_mapState sound' flag' (step s)

end Sys2Proof.Machine
end

section
/-! PROOF. The state after reset and after the loader: the reset table (10_state.md R44), the font (R43), the image
(R42), and both invariants there. -/

namespace Sys2Proof.Machine

/-! ### Reset -/

/-- Settles O53: field by field, memory by `read_resetWith`. -/
theorem resetStateIsTheTable : Obligations.ResetStateIsTheTable := by
  refine ⟨fun c => ?_, resetWith_defaultConfiguration.symm, rfl⟩
  refine ⟨?regs, rfl, rfl, rfl, ?stack, rfl, rfl, ?pixels, rfl, ?keys, ?font, ?zeros, rfl⟩
  case regs => intro r; simp [State.reg, State.reset]
  case stack => intro k hk; simp [State.stackAt, State.reset, hk]
  case pixels => intro px py; simp [State.pixel, Display.pixel, State.reset]
  case keys => intro k; simp [State.key, State.reset]
  case font => intro a ha; simp [read_resetWith, ha]
  case zeros => intro a ha _; simp [read_resetWith, Nat.not_lt.mpr ha]

/-- Settles O55: `State.reset` lists no byte, so the sixteen glyphs are read from the default font. -/
theorem defaultFontIsTheTable : Obligations.DefaultFontIsTheTable := by
  intro s x d hreg
  have hdigit : (glyphAddress (s.reg x)).toNat = 5 * d.toNat := by
    have := d.isLt
    rw [glyphAddress_toNat, hreg, BitVec.toNat_setWidth]
    omega
  refine ⟨_, exec_ldF s x, hdigit, ?_⟩
  simp only [hdigit]
  clear hdigit hreg
  revert d
  decide

/-! ### The loader -/

section
variable (c : Configuration) {image : List Byte}

theorem boot_of_le (h : image.length ≤ 3584) : boot c image =
    some { State.resetWith c with mem := (State.resetWith c).mem.writeBytes 0x200 image } :=
  if_pos h

theorem boot_of_gt (h : 3584 < image.length) : boot c image = none :=
  if_neg (Nat.not_le.mpr h)

/-- The loader accepts an image exactly up to 3584 bytes, and writes memory alone (R42). -/
theorem boot_eq_some {s : State} (h : boot c image = some s) : image.length ≤ 3584 ∧
    s = { State.resetWith c with mem := (State.resetWith c).mem.writeBytes 0x200 image } := by
  by_cases hle : image.length ≤ 3584
  · rw [boot_of_le c hle] at h
    exact ⟨hle, (Option.some.inj h).symm⟩
  · rw [boot_of_gt c (Nat.lt_of_not_le hle)] at h
    cases h

/-- With `pc` and `SP` of the reset both ranges hold, whatever memory holds: no return address is live. -/
theorem inRange_of_reset {s : State} (hpc : s.pc = 0x200#16) (hsp : s.sp = 0#8) : s.InRange := by
  refine ⟨by simp [hpc], by simp [hsp], fun k _ hk _ => ?_⟩
  simp [hsp] at hk

theorem inv_of_reset {s : State} (hwf : s.mem.wf = true) (hsp : s.sp = 0#8) : s.Inv :=
  ⟨hwf, by simp [hsp]⟩

/-- The first step runs the word at 0x200 (R42, R44, R65). -/
theorem step_of_pc_loadAddr {s : State} (hpc : s.pc = 0x200#16) :
    step s = exec (decodeWord (wordOfBytes (s.mem.read 0x200) (s.mem.read 0x201)))
      { s with pc := 0x202#16 } := by
  have hf : s.fetchable := by simp [State.fetchable, hpc]
  rw [step_of_fetchable hf, State.current, fetchedWord, State.advance, hpc]
  rfl

end

/-- Settles O14: the image ends inside memory, so the loader keeps its canonical form. -/
theorem invariantsHoldAfterBoot : Obligations.InvariantsHoldAfterBoot := by
  intro c
  refine ⟨inv_of_reset (wf_resetWith c) rfl, inRange_of_reset rfl rfl, fun image s h => ?_⟩
  obtain ⟨hle, rfl⟩ := boot_eq_some c h
  have hwf := Memory.wf_writeBytes (a := 0x200) image (wf_resetWith c) (by omega)
  exact ⟨inv_of_reset hwf rfl, inRange_of_reset rfl rfl⟩

/-- Settles O54: memory by the law of block writes, the rest by the frame of a memory update, the first step
by the reset value of `pc`. -/
theorem imageIsLoadedAtTheEntryPoint : Obligations.ImageIsLoadedAtTheEntryPoint := by
  intro c image
  refine ⟨fun hle => ⟨_, boot_of_le c hle, ?bytes, ?others, (keptBut_mem _ _).sameBut, ?first⟩, boot_of_gt c⟩
  case bytes =>
    intro k hk
    simp [Memory.read_writeBytes, hk]
  case others =>
    intro a ha
    exact Memory.read_writeBytes_outside ha
  case first =>
    intro h2
    rw [step_of_pc_loadAddr rfl]
    simp [Memory.read_writeBytes, show 0 < image.length by omega, show 513 < 512 + image.length by omega]

end Sys2Proof.Machine
end

section
/-! PROOF. Memory (20_memory.md): the ports MemRead and MemWrite (R62, R63), the canonical form (log 27), the fetch
(R65, R67, R78), and which steps change a byte (R70). -/

namespace Sys2Proof.Machine

/-! ### MemRead and MemWrite -/

/-- Settles O8: the range check in its two cases, and byte `k` of a block read. -/
theorem memReadReturnsBytesInOrder : Obligations.MemReadReturnsBytesInOrder := by
  intro s addr n body
  refine ⟨fun h => memRead_of_gt h s body, fun h => ⟨_, memRead_of_le h s body, ?length, ?bytes⟩⟩
  case length => exact Memory.length_readBytes ..
  case bytes =>
    intro k hk
    rw [Memory.getElem?_readBytes, if_pos hk]

/-- Settles O9: the range check in its two cases, and the law of block writes. -/
theorem memWriteChangesOnlyItsBytes : Obligations.MemWriteChangesOnlyItsBytes := by
  intro s addr b
  refine ⟨fun h => memWrite_of_gt h s,
    fun h => ⟨_, memWrite_of_le h s, (keptBut_mem s _).sameBut, ?bytes, ?others⟩⟩
  case bytes =>
    intro k hk
    simp [Memory.read_writeBytes, hk]
  case others =>
    intro a ha
    exact Memory.read_writeBytes_outside ha

/-! ### The canonical form -/

/-- In canonical form the cells stand by rising address. -/
theorem Memory.pairwise_of_wf {m : Memory} (h : m.wf = true) :
    m.Pairwise (InvImage (· < ·) Prod.fst) := by
  induction m with
  | nil => exact List.Pairwise.nil
  | cons c rest ih =>
    obtain ⟨_, _, habove, hrest⟩ := (Memory.wf_cons ..).mp h
    exact List.pairwise_cons.mpr ⟨habove, ih hrest⟩

/-- In canonical form a byte is listed exactly when it reads there and is not the reset content. -/
theorem Memory.mem_iff_read {m : Memory} (h : m.wf = true) (a : Nat) (b : Byte) :
    (a, b) ∈ m ↔ m.read a = b ∧ b ≠ resetByte a := by
  induction m with
  | nil => simp [Memory.read, eq_comm]
  | cons c rest ih =>
    obtain ⟨k, v⟩ := c
    obtain ⟨_, hv, habove, hrest⟩ := (Memory.wf_cons ..).mp h
    by_cases hk : k = a
    · subst hk
      have hnot : (k, b) ∉ rest := fun hmem => Nat.lt_irrefl k (habove _ hmem)
      simp only [List.mem_cons, Prod.mk.injEq, true_and, hnot, or_false, Memory.read, if_true]
      exact ⟨fun e => ⟨e.symm, e ▸ hv⟩, fun ⟨e, _⟩ => e.symm⟩
    · simp [Memory.read, hk, Ne.symm hk, ih hrest]

/-- Settles O10: both lists rise by address, and their reads say which cells they hold. -/
theorem canonicalMemoriesAreEqualWhenTheyReadAlike :
    Obligations.CanonicalMemoriesAreEqualWhenTheyReadAlike := by
  intro m m' hwf hwf' hread
  refine (Memory.pairwise_of_wf hwf).eq_of_mem_iff (Memory.pairwise_of_wf hwf') fun ⟨a, b⟩ => ?_
  rw [Memory.mem_iff_read hwf, Memory.mem_iff_read hwf', hread]

/-! ### The fetch -/

/-- Settles O6: parity first, then the range; both answers carry the state itself. -/
theorem fetchErrorsChangeNothing : Obligations.FetchErrorsChangeNothing :=
  fun _ => ⟨fun hodd => fetchThen_of_odd hodd _, fun heven hge => fetchThen_of_outside heven hge _⟩

section
variable {s : State} (w : Word) (hf : s.fetchable)
include hf

theorem storeAtPc_of_fetchable :
    storeAtPc w s = { s with mem := s.mem.writeBytes s.pc.toNat (bytesOfWord w) } :=
  if_pos ((inBounds_iff _ _).mpr hf.2)

/-- A word stored at `pc` is the word fetched there (R65, R68). -/
theorem fetchedWord_storeAtPc : fetchedWord (storeAtPc w s) = w := by
  rw [storeAtPc_of_fetchable w hf]
  simp [fetchedWord, Memory.read_writeBytes, bytesOfWord]

theorem step_storeAtPc :
    step (storeAtPc w s) = exec (decodeWord w) { storeAtPc w s with pc := s.pc + 2#16 } := by
  have hpc : (storeAtPc w s).pc = s.pc := by rw [storeAtPc_of_fetchable w hf]
  have hf' : (storeAtPc w s).fetchable := by rwa [State.fetchable, hpc]
  rw [step_of_fetchable hf', State.current, fetchedWord_storeAtPc w hf, State.advance, hpc]

end

/-- The host's number of a whole word stands for its low sixteen bits. -/
theorem tableWord_sixteen (w : Nat) : tableWord 16 w = BitVec.ofNat 16 w :=
  BitVec.eq_of_toNat_eq (by simp [tableWord])

/-- Settles O7: the store is a block write of the word's two bytes at `pc`, which the fetch reads back. -/
theorem placedWordRunsNext : Obligations.PlacedWordRunsNext := by
  intro s w hf
  simp only [State.withFetchWord, tableWord_sixteen]
  refine ⟨step_storeAtPc _ hf, ?frame, ?others⟩ <;> rw [storeAtPc_of_fetchable _ hf]
  case frame => exact (keptBut_mem s _).sameBut
  case others => exact fun a ha => Memory.read_writeBytes_outside ha

/-! ### Which steps change memory, and how the next fetch sees it -/

/-- A handler that changes a byte is one of the two block stores, at an address of its block (R70). -/
theorem exec_mem_changed {i : Instr} {s t : State} (h : exec i s = .next t) {a : Nat}
    (hne : t.mem.read a ≠ s.mem.read a) :
    (∃ x, i = .ldB x ∧ s.i.toNat ≤ a ∧ a < s.i.toNat + 3) ∨
    (∃ x, i = .ldMemVx x ∧ s.i.toNat ≤ a ∧ a < s.i.toNat + x.toNat + 1) := by
  by_cases hmem : Part.mem ∈ i.mayWrite
  · obtain ⟨x, rfl | rfl⟩ := store_of_mem_mem hmem
    · obtain ⟨_, rfl⟩ := exec_ldB_next h
      refine .inl ⟨x, rfl, ?_⟩
      by_contra hout
      exact hne (Memory.read_writeBytes_outside (by rw [length_decimalDigits]; omega))
    · obtain ⟨_, rfl⟩ := exec_ldMemVx_next h
      refine .inr ⟨x, rfl, ?_⟩
      by_contra hout
      exact hne (Memory.read_writeBytes_outside (by rw [regs_length]; omega))
  · exact absurd (congrArg (Memory.read · a) (kept_of_exec h (by simp) hmem)) hne

/-- Settles O21: the fetch changes no byte, and the handler only those of its block. -/
theorem memoryChangesOnlyByBlockStores : Obligations.MemoryChangesOnlyByBlockStores := by
  intro s t h a hne
  obtain ⟨_, hexec⟩ := exec_of_step_next h
  exact exec_mem_changed hexec hne

/-- The bytes LD [I] stores, told by their number and values (R202). -/
theorem eq_regs_of_getElem? {s : State} {x : Nibble} {stored : List Byte} (hlen : stored.length = x.toNat + 1)
    (hval : ∀ k : Nibble, k.toNat ≤ x.toNat → stored[k.toNat]? = some (s.reg k)) :
    stored = s.regs (x.toNat + 1) := by
  refine List.ext_getElem? fun k => ?_
  rw [regs_getElem?]
  by_cases hk : k < x.toNat + 1
  · have hx := x.isLt
    have hnat : (BitVec.ofNat 4 k).toNat = k := by
      rw [BitVec.toNat_ofNat]
      omega
    rw [if_pos hk, ← hval _ (by omega), hnat]
  · rw [if_neg hk, List.getElem?_eq_none (by omega)]

/-- The bytes LD B stores, told by their values (R201). -/
theorem eq_decimalDigits_of_toNat {b : Byte} {stored : List Byte}
    (h : stored.map BitVec.toNat = [b.toNat / 100, b.toNat / 10 % 10, b.toNat % 10]) :
    stored = decimalDigits b := by
  have hb := b.isLt
  refine List.map_injective_iff.mpr (fun _ _ => BitVec.eq_of_toNat_eq) (h.trans ?_)
  simp (disch := omega) [decimalDigits, Nat.mod_eq_of_lt]

/-- The state after a step that stored bytes at `I` and did nothing else. -/
def State.afterStore (s : State) (stored : List Byte) : State :=
  { s.advance with mem := s.mem.writeBytes s.i.toNat stored }

/-- The fetch after a store reads the stored bytes over the old memory (R78). -/
theorem step_afterStore {s : State} (heven : s.pc.toNat % 2 = 0) (hle : s.pc.toNat + 4 ≤ 4096)
    (stored : List Byte) :
    (s.afterStore stored).pc.toNat = s.pc.toNat + 2 ∧
    step (s.afterStore stored) = exec (decodeWord (wordOfBytes (s.overlaid stored (s.pc.toNat + 2))
      (s.overlaid stored (s.pc.toNat + 3)))) { s.afterStore stored with pc := s.pc + 4#16 } := by
  have hpc : (s.afterStore stored).pc.toNat = s.pc.toNat + 2 := by
    simp only [State.afterStore, advance_pc]
    bv_omega
  have hread : ∀ a, (s.afterStore stored).mem.read a = s.overlaid stored a :=
    read_store_eq_overlaid s stored
  have hadvance : (s.afterStore stored).advance = { s.afterStore stored with pc := s.pc + 4#16 } := by
    simp [State.afterStore, State.advance, BitVec.add_assoc]
  refine ⟨hpc, ?_⟩
  rw [step_of_fetchable (by rw [State.fetchable]; omega), State.current, fetchedWord, hread, hread,
    hpc, hadvance]

/-- Settles O11: either store leaves `State.afterStore` of its bytes. -/
theorem storeIsSeenByTheNextFetch : Obligations.StoreIsSeenByTheNextFetch := by
  intro s t x stored heven hle h hstore
  obtain ⟨_, hexec⟩ := exec_of_step_next h
  have ht : t = s.afterStore stored := by
    obtain ⟨hi, hlen, hval⟩ | ⟨hi, hdigits⟩ := hstore <;> rw [hi] at hexec
    · rw [eq_regs_of_getElem? hlen hval]
      exact (exec_ldMemVx_next hexec).2
    · rw [eq_decimalDigits_of_toNat hdigits]
      exact (exec_ldB_next hexec).2
  rw [ht]
  exact step_afterStore heven hle stored

end Sys2Proof.Machine
end

section
/-! PROOF. Both invariants (10_state.md R34, R35) along every schedule of steps and outside actions (20_memory.md R76). -/

namespace Sys2Proof.Machine

/-- What the action itself keeps: a step by O12 and O13, an outside action because it writes none of memory, `pc`,
`SP` and the stack (R76, R255). -/
theorem perform_keeps_invariants {a : HostAction} {s t : State} (h : perform a s = .next t)
    (hinv : s.Inv) (hrange : s.InRange) : t.Inv ∧ t.InRange := by
  cases a with
  | step =>
    exact ⟨invariantIsKeptByEveryStep s t hinv h, reachableRangesAreKeptByEveryStep s t hrange h⟩
  | tick | keys _ | renderer | random _ =>
    obtain rfl := Host.Outcome.next.inj h
    exact ⟨hinv, hrange⟩

/-- A schedule that completes performed its first action and went on from there. -/
theorem runActions_cons_next {a : HostAction} {rest : List HostAction} {s t : State}
    (h : runActions (a :: rest) s = .next t) :
    ∃ u, perform a s = .next u ∧ runActions rest u = .next t := by
  rw [runActions] at h
  cases ha : perform a s with
  | next u => exact ⟨u, rfl, by rwa [ha] at h⟩
  | fault f => rw [ha] at h; cases h
  | refused r => rw [ha] at h; cases h

/-- Settles O15, by induction on the schedule. -/
theorem invariantsAreKeptByEverySchedule : Obligations.InvariantsAreKeptByEverySchedule := by
  intro actions
  induction actions with
  | nil =>
    intro s t hinv hrange h
    obtain rfl := Host.Outcome.next.inj h
    exact ⟨hinv, hrange⟩
  | cons a rest ih =>
    intro s t hinv hrange h
    obtain ⟨u, hfirst, hrest⟩ := runActions_cons_next h
    obtain ⟨hinv', hrange'⟩ := perform_keeps_invariants hfirst hinv hrange
    exact ih u t hinv' hrange' hrest

end Sys2Proof.Machine
end

section
/-! PROOF. The encoding (30_encoding.md R90 to R106): decode after encode, encode after decode, and the mask and match
table against the two-level dispatch. -/

namespace Sys2Proof

/-! ### The dispatch, family by family (R94 to R99) -/

section
variable {w : Word}

theorem decodeWord_family0 (hop : fieldOP w = 0x0#4) : decodeWord w = decodeFamily0 w := by
  simp [decodeWord, hop]

theorem decodeWord_family8 (hop : fieldOP w = 0x8#4) : decodeWord w = decodeFamily8 w := by
  simp [decodeWord, hop]

theorem decodeWord_familyE (hop : fieldOP w = 0xE#4) : decodeWord w = decodeFamilyE w := by
  simp [decodeWord, hop]

theorem decodeWord_familyF (hop : fieldOP w = 0xF#4) : decodeWord w = decodeFamilyF w := by
  simp [decodeWord, hop]

/-! A word whose key is in no secondary table is of its family's catch-all row (R100). -/

theorem decodeWord_sys (hop : fieldOP w = 0x0#4) (hkey : fieldNN w ∉ family0Keys) :
    decodeWord w = .sys (fieldNNN w) := by
  rw [decodeWord_family0 hop, decodeFamily0]
  split <;> simp_all [family0Keys]

theorem decodeWord_nop8 (hop : fieldOP w = 0x8#4) (hkey : fieldN w ∉ family8Keys) :
    decodeWord w = .nop8 (fieldX w) (fieldY w) (fieldN w) := by
  rw [decodeWord_family8 hop, decodeFamily8]
  split <;> simp_all [family8Keys]

theorem decodeWord_nopE (hop : fieldOP w = 0xE#4) (hkey : fieldNN w ∉ familyEKeys) :
    decodeWord w = .nopE (fieldX w) (fieldNN w) := by
  rw [decodeWord_familyE hop, decodeFamilyE]
  split <;> simp_all [familyEKeys]

theorem decodeWord_nopF (hop : fieldOP w = 0xF#4) (hkey : fieldNN w ∉ familyFKeys) :
    decodeWord w = .nopF (fieldX w) (fieldNN w) := by
  rw [decodeWord_familyF hop, decodeFamilyF]
  split <;> simp_all [familyFKeys]

end

/-! ### Well-formed catch-all rows -/

section
variable (x y n : Nibble) (nn : Byte) (nnn : Addr)

@[simp] theorem wellFormed_sys :
    (Instr.sys nnn).wellFormed = true ↔ nnn.extractLsb' 0 8 ∉ family0Keys := by
  simp [Instr.wellFormed]

@[simp] theorem wellFormed_nop8 : (Instr.nop8 x y n).wellFormed = true ↔ n ∉ family8Keys := by
  simp [Instr.wellFormed]

@[simp] theorem wellFormed_nopE : (Instr.nopE x nn).wellFormed = true ↔ nn ∉ familyEKeys := by
  simp [Instr.wellFormed]

@[simp] theorem wellFormed_nopF : (Instr.nopF x nn).wellFormed = true ↔ nn ∉ familyFKeys := by
  simp [Instr.wellFormed]

end

/-! ### Decode after encode -/

/-- The fields of an assembled word are the ones it was assembled from, so the dispatch finds the row again; the
word of a catch-all row has a key of no other row, since the instruction is well formed. -/
theorem decodeWord_encode {i : Instr} (h : i.wellFormed = true) : decodeWord (encode i) = i := by
  cases i with
  | sys nnn =>
    simpa [encode] using decodeWord_sys (w := encode (.sys nnn)) (by simp [encode]) (by simpa [encode] using h)
  | nop8 x y n =>
    simpa [encode] using decodeWord_nop8 (w := encode (.nop8 x y n)) (by simp [encode]) (by simpa [encode] using h)
  | nopE x nn =>
    simpa [encode] using decodeWord_nopE (w := encode (.nopE x nn)) (by simp [encode]) (by simpa [encode] using h)
  | nopF x nn =>
    simpa [encode] using decodeWord_nopF (w := encode (.nopF x nn)) (by simp [encode]) (by simpa [encode] using h)
  | cls _ | ret _ =>
    rw [decodeWord_family0 (by simp [encode])]
    simp [encode, decodeFamily0]
  | ldReg _ _ | orReg _ _ | andReg _ _ | xorReg _ _ | addReg _ _ | subReg _ _ | shr _ _ | subnReg _ _
  | shl _ _ =>
    rw [decodeWord_family8 (by simp [encode])]
    simp [encode, decodeFamily8]
  | skp _ | sknp _ =>
    rw [decodeWord_familyE (by simp [encode])]
    simp [encode, decodeFamilyE]
  | ldVxDT _ | ldVxK _ | ldDTVx _ | ldSTVx _ | addI _ | ldF _ | ldB _ | ldMemVx _ | ldVxMem _ =>
    rw [decodeWord_familyF (by simp [encode])]
    simp [encode, decodeFamilyF]
  | _ => simp [encode, decodeWord]

/-- Settles O1: each word by evaluating the decoder. -/
theorem knownWordsDecode : Obligations.KnownWordsDecode :=
  ⟨rfl, rfl, rfl, rfl, rfl, rfl, rfl, rfl, rfl, rfl, rfl⟩

/-- Settles O2: the round trip of words, which bytes share since two bytes form their word again. -/
theorem decodeEncodeRoundTrip : Obligations.DecodeEncodeRoundTrip := by
  intro i rest h
  refine ⟨decodeWord_encode h, ?_⟩
  rw [encodeBytes, decodeBytes_bytesOfWord, decodeWord_encode h]

/-! ### Encode after decode -/

section
variable {w : Word} {op : Nibble}

theorem wordNNN_of_fields (hop : fieldOP w = op) : wordNNN op (fieldNNN w) = w :=
  hop ▸ wordNNN_fields w

theorem wordXNN_of_fields {nn : Byte} (hop : fieldOP w = op) (hnn : fieldNN w = nn) :
    wordXNN op (fieldX w) nn = w :=
  hop ▸ hnn ▸ wordXNN_fields w

theorem wordXYN_of_fields {n : Nibble} (hop : fieldOP w = op) (hn : fieldN w = n) :
    wordXYN op (fieldX w) (fieldY w) n = w :=
  hop ▸ hn ▸ wordXYN_fields w

/-- The instruction is well formed and stands for the word. -/
def StandsFor (i : Instr) (w : Word) : Prop := i.wellFormed = true ∧ encode i = w

theorem decodeFamily0_standsFor (hop : fieldOP w = 0x0#4) : StandsFor (decodeFamily0 w) w := by
  unfold decodeFamily0
  split
  case h_3 => exact ⟨by simp_all [fieldNNN_low, family0Keys], wordNNN_of_fields hop⟩
  all_goals exact ⟨rfl, wordXNN_of_fields hop ‹_›⟩

theorem decodeFamily8_standsFor (hop : fieldOP w = 0x8#4) : StandsFor (decodeFamily8 w) w := by
  unfold decodeFamily8
  split
  case h_10 => exact ⟨by simp_all [family8Keys], wordXYN_of_fields hop rfl⟩
  all_goals exact ⟨rfl, wordXYN_of_fields hop ‹_›⟩

theorem decodeFamilyE_standsFor (hop : fieldOP w = 0xE#4) : StandsFor (decodeFamilyE w) w := by
  unfold decodeFamilyE
  split
  case h_3 => exact ⟨by simp_all [familyEKeys], wordXNN_of_fields hop rfl⟩
  all_goals exact ⟨rfl, wordXNN_of_fields hop ‹_›⟩

theorem decodeFamilyF_standsFor (hop : fieldOP w = 0xF#4) : StandsFor (decodeFamilyF w) w := by
  unfold decodeFamilyF
  split
  case h_10 => exact ⟨by simp_all [familyFKeys], wordXNN_of_fields hop rfl⟩
  all_goals exact ⟨rfl, wordXNN_of_fields hop ‹_›⟩

end

/-- The four families by their tables; every other row keeps all the fields of its word. -/
theorem decodeWord_standsFor (w : Word) : StandsFor (decodeWord w) w := by
  unfold decodeWord
  split
  case h_1 hop => exact decodeFamily0_standsFor hop
  case h_9 hop => exact decodeFamily8_standsFor hop
  case h_15 hop => exact decodeFamilyE_standsFor hop
  case h_16 =>
    have hop : fieldOP w = 0xF#4 := by
      generalize fieldOP w = op at *
      revert op
      decide
    exact decodeFamilyF_standsFor hop
  case h_2 hop | h_3 hop | h_11 hop | h_12 hop => exact ⟨rfl, wordNNN_of_fields hop⟩
  case h_4 hop | h_5 hop | h_7 hop | h_8 hop | h_13 hop => exact ⟨rfl, wordXNN_of_fields hop rfl⟩
  case h_6 hop | h_10 hop | h_14 hop => exact ⟨rfl, wordXYN_of_fields hop rfl⟩

/-- Settles O3: `decodeWord_standsFor` for every word. -/
theorem encodeDecodeRoundTrip : Obligations.EncodeDecodeRoundTrip := decodeWord_standsFor

/-! ### The mask and match table -/

/-- What a row's mask and pattern ask of the fields of a word (R106): `OP`, and under the masks 0xF00F and 0xF0FF
also the key `N` or `NN`. -/
def OpcodeRow.admits (r : OpcodeRow) (op n : Nibble) (nn : Byte) : Bool :=
  op == fieldOP r.pattern &&
    (r.mask == 0xF000#16 || (if r.mask == 0xF00F#16 then n == fieldN r.pattern else nn == fieldNN r.pattern))

/-- The table's reading of the fields of a word. -/
def fieldsMnemonic (op n : Nibble) (nn : Byte) : Option String :=
  (opcodeRows.find? (·.admits op n nn)).map OpcodeRow.mnemonic

/-- Every row has one of three masks, and a pattern of fields that the mask looks at. -/
theorem opcodeRows_shape : ∀ r ∈ opcodeRows,
    (r.mask = 0xF000#16 ∧ r.pattern = wordNNN (fieldOP r.pattern) 0#12) ∨
    (r.mask = 0xF00F#16 ∧ r.pattern = wordXYN (fieldOP r.pattern) 0#4 0#4 (fieldN r.pattern)) ∨
    (r.mask = 0xF0FF#16 ∧ r.pattern = wordXNN (fieldOP r.pattern) 0#4 (fieldNN r.pattern)) := by
  decide

theorem matchesWord_eq_admits {r : OpcodeRow} (hr : r ∈ opcodeRows) (w : Word) :
    r.matchesWord w = r.admits (fieldOP w) (fieldN w) (fieldNN w) := by
  rw [Bool.eq_iff_iff, OpcodeRow.matchesWord, OpcodeRow.admits, beq_iff_eq]
  obtain ⟨hm, hp⟩ | ⟨hm, hp⟩ | ⟨hm, hp⟩ := opcodeRows_shape r hr
  · rw [hm, hp, mask_op]
    simp
  · rw [hm, hp, mask_op_N]
    simp
  · rw [hm, hp, mask_op_NN]
    simp

theorem tableMnemonic_eq (w : Word) :
    tableMnemonic w = fieldsMnemonic (fieldOP w) (fieldN w) (fieldNN w) := by
  rw [tableMnemonic, fieldsMnemonic,
    List.find?_congr fun r hr => matchesWord_eq_admits hr w]

/-! In each family the rows before the catch-all ask for the keys of the family's table, so a key outside it is
left to the catch-all (R100). -/

section
variable {n : Nibble} {nn : Byte}

theorem fieldsMnemonic_sys (hkey : nn ∉ family0Keys) : fieldsMnemonic 0x0#4 n nn = some "SYS_nnn" := by
  simp_all [fieldsMnemonic, opcodeRows, opcodeRowsLow, OpcodeRow.admits, family0Keys, fieldOP, fieldNN]

theorem fieldsMnemonic_nop8 (hkey : n ∉ family8Keys) : fieldsMnemonic 0x8#4 n nn = some "NOP.8" := by
  simp_all [fieldsMnemonic, opcodeRows, opcodeRowsLow, opcodeRowsFamily8, OpcodeRow.admits,
    family8Keys, fieldOP, fieldN]

theorem fieldsMnemonic_nopE (hkey : nn ∉ familyEKeys) : fieldsMnemonic 0xE#4 n nn = some "NOP.E" := by
  simp_all [fieldsMnemonic, opcodeRows, opcodeRowsLow, opcodeRowsFamily8, opcodeRowsHigh,
    OpcodeRow.admits, familyEKeys, fieldOP, fieldNN]

theorem fieldsMnemonic_nopF (hkey : nn ∉ familyFKeys) : fieldsMnemonic 0xF#4 n nn = some "NOP.F" := by
  simp_all [fieldsMnemonic, opcodeRows, opcodeRowsLow, opcodeRowsFamily8, opcodeRowsHigh,
    opcodeRowsFamilyF, OpcodeRow.admits, familyFKeys, fieldOP, fieldNN]

end

/-- The table reads an encoded instruction as that instruction: the fields the word was assembled from are those the
row asks for. -/
theorem tableMnemonic_encode {i : Instr} (h : i.wellFormed = true) :
    tableMnemonic (encode i) = some i.mnemonic := by
  rw [tableMnemonic_eq]
  cases i with
  | sys nnn => simpa [encode, Instr.mnemonic] using fieldsMnemonic_sys ((wellFormed_sys _).mp h)
  | nop8 x y n => simpa [encode, Instr.mnemonic] using fieldsMnemonic_nop8 ((wellFormed_nop8 ..).mp h)
  | nopE x nn => simpa [encode, Instr.mnemonic] using fieldsMnemonic_nopE ((wellFormed_nopE ..).mp h)
  | nopF x nn => simpa [encode, Instr.mnemonic] using fieldsMnemonic_nopF ((wellFormed_nopF ..).mp h)
  | jp _ | call _ | ldI _ | jpV0 _ =>
    rw [encode, fieldOP_wordNNN]
    rfl
  | seReg _ _ _ | sneReg _ _ _ | drw _ _ _ =>
    rw [encode, fieldOP_wordXYN]
    rfl
  | ldReg _ _ | orReg _ _ | andReg _ _ | xorReg _ _ | addReg _ _ | subReg _ _ | shr _ _ | subnReg _ _
  | shl _ _ =>
    rw [encode, fieldOP_wordXYN, fieldN_wordXYN]
    rfl
  | _ =>
    rw [encode, fieldOP_wordXNN, fieldNN_wordXNN]
    rfl

/-- Settles O4: every word is the encoding of the instruction it decodes to, and the table reads that word. -/
theorem tableAgreesWithDispatch : Obligations.TableAgreesWithDispatch := by
  intro w
  obtain ⟨hwf, henc⟩ := decodeWord_standsFor w
  rw [← tableMnemonic_encode hwf, henc]

end Sys2Proof
end

section
/-! PROOF. What a step runs (30_encoding.md R104): the instruction at `pc` (R65, R66), every word (R102), the words in
no table (R100), and the instructions that write the timers (R105, R198). -/

namespace Sys2Proof.Machine

/-- The word at `pc` is the one whose bytes stand there (R65, R68). -/
theorem fetchedWord_of_bytes {s : State} {w : Word}
    (h : [s.mem.read s.pc.toNat, s.mem.read (s.pc.toNat + 1)] = bytesOfWord w) : fetchedWord s = w := by
  obtain ⟨hhi, hlo⟩ : s.mem.read s.pc.toNat = w.extractLsb' 8 8 ∧
      s.mem.read (s.pc.toNat + 1) = w.extractLsb' 0 8 := by simpa [bytesOfWord] using h
  rw [fetchedWord, hhi, hlo, wordOfBytes_extract]

/-- Settles O5: the fetch reads the encoding of the instruction, which decodes to it (O2). -/
theorem stepRunsDecodedInstruction : Obligations.StepRunsDecodedInstruction := by
  intro s i hwf heven hle hbytes
  rw [step_of_fetchable ⟨heven, hle⟩, State.current, fetchedWord_of_bytes hbytes, decodeWord_encode hwf]
  rfl

/-- With `SP` in 0 .. 16 a handler completes or raises one of three errors in the state it was given: only RET
above 16 is refused (R102, R212). -/
theorem exec_next_or_fault (i : Instr) {s : State} (hsp : s.sp.toNat ≤ 16) :
    (∃ t, exec i s = .next t) ∨ exec i s = .fault (.memoryOutOfBounds s) ∨
    exec i s = .fault (.stackOverflow s) ∨ exec i s = .fault (.stackUnderflow s) := by
  cases i with
  | call nnn =>
    obtain ⟨_, e⟩ | ⟨_, e⟩ := exec_call_cases s nnn
    · exact .inl ⟨_, e⟩
    · exact .inr (.inr (.inl e))
  | ret ign =>
    obtain ⟨_, e⟩ | ⟨_, _, _, _, e⟩ | ⟨hgt, _⟩ := exec_ret_cases s ign
    · exact .inr (.inr (.inr e))
    · exact .inl ⟨_, e⟩
    · omega
  | ldVxK x =>
    obtain ⟨_, e⟩ | ⟨_, _, e⟩ := exec_ldVxK_cases s x <;> exact .inl ⟨_, e⟩
  | ldB x => exact (exec_ldB_cases s x).imp (fun ⟨_, e⟩ => ⟨_, e⟩) fun ⟨_, e⟩ => .inl e
  | ldMemVx x => exact (exec_ldMemVx_cases s x).imp (fun ⟨_, e⟩ => ⟨_, e⟩) fun ⟨_, e⟩ => .inl e
  | ldVxMem x => exact (exec_ldVxMem_cases s x).imp (fun ⟨_, e⟩ => ⟨_, e⟩) fun ⟨_, e⟩ => .inl e
  | drw x y n => exact (exec_drw_cases s x y n).imp (fun ⟨_, e⟩ => ⟨_, e⟩) fun ⟨_, e⟩ => .inl e
  | _ => exact .inl ⟨_, rfl⟩

/-- Settles O25: the decoder is total, and every instruction answers as `exec_next_or_fault` says. -/
theorem everyWordRunsOrRaisesItsError : Obligations.EveryWordRunsOrRaisesItsError :=
  fun w _ hsp => exec_next_or_fault (decodeWord w) hsp

/-- Settles O26: a key in no table decodes to its family's catch-all row, whose handler does nothing. -/
theorem unmappedWordsAreNoOps : Obligations.UnmappedWordsAreNoOps := by
  refine ⟨fun s => ⟨exec_sys s, exec_nop8 s, exec_nopE s, exec_nopF s⟩, fun s hf hword => ?_⟩
  rw [step_of_fetchable hf, State.current]
  obtain ⟨hop, hkey⟩ | ⟨hop, hkey⟩ | ⟨hop, hkey⟩ | ⟨hop, hkey⟩ := hword
  · rw [decodeWord_sys hop hkey]
    exact exec_sys ..
  · have hout : ∀ n ∈ [0x8#4, 0x9#4, 0xA#4, 0xB#4, 0xC#4, 0xD#4, 0xF#4], n ∉ family8Keys := by decide
    rw [decodeWord_nop8 hop (hout _ hkey)]
    exact exec_nop8 ..
  · rw [decodeWord_nopE hop hkey]
    exact exec_nopE ..
  · rw [decodeWord_nopF hop hkey]
    exact exec_nopF ..

/-! ### The timers -/

section
variable {i : Instr} {s t : State}

theorem ldDTVx_of_dt_mem (h : Part.dt ∈ i.mayWrite) : ∃ x, i = .ldDTVx x := by
  cases i <;> simp_all [Instr.mayWrite]

theorem ldSTVx_of_st_mem (h : Part.st ∈ i.mayWrite) : ∃ x, i = .ldSTVx x := by
  cases i <;> simp_all [Instr.mayWrite]

theorem exec_dt (h : exec i s = .next t) : t.dt = s.dt ∨ ∃ x, i = .ldDTVx x ∧ t.dt = s.reg x := by
  by_cases hmem : Part.dt ∈ i.mayWrite
  · obtain ⟨x, rfl⟩ := ldDTVx_of_dt_mem hmem
    obtain rfl := Host.Outcome.next.inj h
    exact .inr ⟨x, rfl, rfl⟩
  · exact .inl (kept_of_exec (p := .dt) h (by simp) hmem)

theorem exec_st (h : exec i s = .next t) : t.st = s.st ∨ ∃ x, i = .ldSTVx x ∧ t.st = s.reg x := by
  by_cases hmem : Part.st ∈ i.mayWrite
  · obtain ⟨x, rfl⟩ := ldSTVx_of_st_mem hmem
    obtain rfl := Host.Outcome.next.inj h
    exact .inr ⟨x, rfl, rfl⟩
  · exact .inl (kept_of_exec (p := .st) h (by simp) hmem)

end

/-- Settles O18: the fetch writes neither timer nor a register, and the handler only as its frame says. -/
theorem timersChangeOnlyByTheirInstructions : Obligations.TimersChangeOnlyByTheirInstructions := by
  intro s t h
  obtain ⟨_, hexec⟩ := exec_of_step_next h
  exact ⟨exec_dt (s := s.advance) hexec, exec_st (s := s.advance) hexec⟩

end Sys2Proof.Machine
end

section
/-! PROOF. Control flow (40_control_flow.md): CALL and RET on the return-address stack (R132, R134), the jumps (R133, R139)
and the skips (R135 to R138). -/

namespace Sys2Proof.Machine

/-! ### CALL and RET -/

/-- Settles O27: `exec_ret_cases`, whose three cases split the values of `SP` as the statement does. -/
theorem returnPopsTheTopEntry : Obligations.ReturnPopsTheTopEntry := by
  intro s ign
  obtain ⟨h0, e⟩ | ⟨h1, h16, w, hw, e⟩ | ⟨hgt, e⟩ := exec_ret_cases s ign
  · exact ⟨fun _ => e, by omega, by omega⟩
  · exact ⟨by omega, fun _ _ => ⟨_, e, sp_pred h1, hw, (keptBut_pop _ _ _).sameBut⟩, by omega⟩
  · exact ⟨by omega, by omega, fun _ => e⟩

/-- Settles O28: `exec_call_cases`; the entries by `stackAt_set`. -/
theorem callPushesTheReturnAddress : Obligations.CallPushesTheReturnAddress := by
  intro s nnn
  obtain ⟨hlt, e⟩ | ⟨hge, e⟩ := exec_call_cases s nnn
  · refine ⟨fun _ => ⟨_, e, ?_, sp_succ hlt, addrWord_toNat nnn, fun k hk => ?_,
      (keptBut_push _ _ _ _).sameBut⟩, by omega⟩
    · exact (stackAt_set hlt _ _).trans (if_pos rfl)
    · exact (stackAt_set hlt _ k).trans (if_neg hk)
  · exact ⟨by omega, fun _ => e⟩

/-- Settles O29: the entry RET pops (O27) is the one CALL set (O28). -/
theorem returnResumesAfterTheCall : Obligations.ReturnResumesAfterTheCall := by
  intro s t u nnn ign hcall husp hustack
  obtain ⟨hlt, -⟩ := exec_call_next hcall
  obtain ⟨t', e, hentry, htsp, -⟩ := (callPushesTheReturnAddress s nnn).left hlt
  obtain rfl := Host.Outcome.next.inj (hcall.symm.trans e)
  have hsp : u.sp.toNat = s.sp.toNat + 1 := husp ▸ htsp
  obtain ⟨-, hpop, -⟩ := returnPopsTheTopEntry u ign
  obtain ⟨w, hret, hwsp, hwpc, -⟩ := hpop (by omega) (by omega)
  rw [hsp, Nat.add_sub_cancel] at hwsp hwpc
  rw [hustack, hentry] at hwpc
  exact ⟨w, hret, (Option.some.inj hwpc).symm, BitVec.eq_of_toNat_eq hwsp⟩

/-! ### Nested calls -/

section
variable {s : State} (target : Addr) (rest : List Addr)

/-- Below 16 entries a nest goes on inside its first call, one entry deeper. -/
theorem nestCalls_cons_of_lt (h : s.sp.toNat < 16) : ∃ s', s'.sp.toNat = s.sp.toNat + 1 ∧
    nestCalls (target :: rest) s = nestCalls rest s' := by
  obtain ⟨s', e, -, hsp, -⟩ := (callPushesTheReturnAddress s target).left h
  exact ⟨s', hsp, by rw [nestCalls, e]⟩

/-- From 16 entries on a nest overflows at its first call. -/
theorem nestCalls_cons_of_ge (h : 16 ≤ s.sp.toNat) :
    nestCalls (target :: rest) s = .fault (.stackOverflow s) := by
  rw [nestCalls, (callPushesTheReturnAddress s target).right h]

end

/-- A nest that the free entries hold completes, with `SP` up by its depth. -/
theorem nestCalls_of_fits {targets : List Addr} {s : State} (h : s.sp.toNat + targets.length ≤ 16) :
    ∃ t, nestCalls targets s = .next t ∧ t.sp.toNat = s.sp.toNat + targets.length := by
  induction targets generalizing s with
  | nil => exact ⟨s, rfl, rfl⟩
  | cons target rest ih =>
    rw [List.length_cons] at h ⊢
    obtain ⟨s', hsp, e⟩ := nestCalls_cons_of_lt target rest (s := s) (by omega)
    obtain ⟨t, ht, htsp⟩ := ih (s := s') (by omega)
    exact ⟨t, e.trans ht, by omega⟩

/-- A nest deeper than the free entries fills the stack and overflows there. -/
theorem nestCalls_of_overflows {targets : List Addr} {s : State} (hsp : s.sp.toNat ≤ 16)
    (h : 16 < s.sp.toNat + targets.length) :
    ∃ t, nestCalls targets s = .fault (.stackOverflow t) ∧ t.sp.toNat = 16 := by
  induction targets generalizing s with
  | nil => exact absurd h (Nat.not_lt_of_le hsp)
  | cons target rest ih =>
    rw [List.length_cons] at h
    by_cases hlt : s.sp.toNat < 16
    · obtain ⟨s', hsp', e⟩ := nestCalls_cons_of_lt target rest hlt
      rw [e]
      exact ih (by omega) (by omega)
    · exact ⟨s, nestCalls_cons_of_ge target rest (by omega), by omega⟩

/-- Settles O30: from an empty stack 16 entries are free. -/
theorem sixteenNestedCallsSucceed : Obligations.SixteenNestedCallsSucceed := by
  intro s targets hempty
  refine ⟨fun hle => ?_, fun hlen => nestCalls_of_overflows (by omega) (by omega)⟩
  obtain ⟨t, ht, htsp⟩ := nestCalls_of_fits (targets := targets) (s := s) (by omega)
  exact ⟨t, ht, by omega⟩

/-! ### Jumps and skips -/

/-- Settles O31: the sum of a 12-bit target and a byte does not wrap at 16 bits. -/
theorem jumpsWriteTheTarget : Obligations.JumpsWriteTheTarget := by
  intro s nnn
  have hnnn := nnn.isLt
  have hv0 := (s.reg 0x0#4).isLt
  refine ⟨⟨_, exec_jp s nnn, addrWord_toNat nnn, (keptBut_pc _ _).sameBut⟩,
    ⟨_, exec_jpV0 s nnn, ?_, (keptBut_pc _ _).sameBut⟩⟩
  rw [jumpTo_pc, BitVec.toNat_add, addrWord_toNat, byteWord_toNat]
  omega

/-- A handler that is a conditional skip adds 2 to `pc` exactly when its condition holds, and writes nothing
else (R12, R130). -/
theorem exec_of_skipIf {i : Instr} {s : State} {c : Bool} {P : Prop} [Decidable P]
    (h : exec i s = .next (s.skipIf c)) (hc : c = true ↔ P) :
    ∃ t, exec i s = .next t ∧ SameBut [.pc] s t ∧
      t.pc.toNat = if P then (s.pc.toNat + 2) % 65536 else s.pc.toNat := by
  refine ⟨_, h, (keptBut_skipIf s c).sameBut, ?_⟩
  rw [skipIf_pc, apply_ite BitVec.toNat, BitVec.toNat_add]
  exact if_congr hc rfl rfl

/-- Settles O33: each of the four is a conditional skip on its own comparison. -/
theorem skipsCompareOnce : Obligations.SkipsCompareOnce := fun s x y ign kk =>
  ⟨exec_of_skipIf (exec_seImm s x kk) beq_iff_eq,
    exec_of_skipIf (exec_sneImm s x kk) bne_iff_ne,
    exec_of_skipIf (exec_seReg s x y ign) beq_iff_eq,
    exec_of_skipIf (exec_sneReg s x y ign) bne_iff_ne⟩

end Sys2Proof.Machine
end

section
/-! PROOF. Register loads and the ALU (41_register_alu.md): the moves, the logic operations and ADD of an immediate
write one register (R151 to R156), the other five write the result and then the flag (R157 to R161, R163). -/

namespace Sys2Proof.Machine

/-! ### The two forms of write -/

section
variable {i : Instr} {s : State} {x : Nibble} {b : Byte}

/-- A handler that writes one register changes nothing else. -/
theorem exec_of_setReg (h : exec i s = .next (s.setReg x b)) :
    ∃ t, exec i s = .next t ∧ t.reg x = b ∧ (∀ r, r ≠ x → t.reg r = s.reg r) ∧ SameBut [.regs] s t :=
  ⟨_, h, (reg_setReg s x x b).trans (if_pos rfl), fun r hr => (reg_setReg s x r b).trans (if_neg hr),
    (keptBut_setReg s x b).sameBut⟩

/-- A handler that writes a result and then the flag leaves the flag in `VF`, the result in any other destination,
and nothing else changed (R150, R163; D8). -/
theorem exec_of_setResultThenFlag {f : Bool} (h : exec i s = .next (s.setResultThenFlag x b f)) :
    ∃ t, exec i s = .next t ∧ t.reg 0xF#4 = flagByte f ∧ (x ≠ 0xF#4 → t.reg x = b) ∧
      (∀ r, r ≠ x → r ≠ 0xF#4 → t.reg r = s.reg r) ∧ SameBut [.regs] s t := by
  have hreg r := reg_setResultThenFlag s x r b f
  exact ⟨_, h, (hreg regF).trans (if_pos rfl), fun hx => (hreg x).trans ((if_neg hx).trans (if_pos rfl)),
    fun r hr hrF => (hreg r).trans ((if_neg hrF).trans (if_neg hr)), (keptBut_setResultThenFlag s x b f).sameBut⟩

end

/-! ### Results, flags and the shift operand as numbers -/

section
variable (a b : Byte)

theorem flagByte_decide (P : Prop) [Decidable P] : flagByte (decide P) = if P then 1#8 else 0#8 :=
  if_congr decide_eq_true_iff rfl rfl

theorem flagByte_carry : flagByte (carry a b) = if a.toNat + b.toNat > 255 then 1#8 else 0#8 :=
  flagByte_decide _

theorem flagByte_noBorrow : flagByte (noBorrow a b) = if a.toNat ≥ b.toNat then 1#8 else 0#8 :=
  flagByte_decide _

theorem flagByte_toNat (f : Bool) : (flagByte f).toNat = f.toNat := by
  cases f <;> rfl

theorem lowBit_toNat : (lowBit a).toNat = a.toNat % 2 := by
  rw [lowBit, BitVec.getLsbD, Nat.toNat_testBit, pow_zero, Nat.div_one]

/-- A byte is below 256, so its bit 7 is its quotient by 128. -/
theorem highBit_toNat : (highBit a).toNat = a.toNat / 128 := by
  have ha := a.isLt
  rw [highBit, BitVec.getLsbD, Nat.toNat_testBit]
  omega

theorem byte_sub_toNat : (a - b).toNat = (a.toNat + 256 - b.toNat) % 256 := by
  have hb := b.isLt
  rw [BitVec.toNat_sub]
  omega

theorem byte_shiftRight_one_toNat : (a >>> 1).toNat = a.toNat / 2 := by
  rw [BitVec.toNat_ushiftRight, Nat.shiftRight_eq_div_pow, pow_one]

theorem byte_shiftLeft_one_toNat : (a <<< 1).toNat = a.toNat * 2 % 256 := by
  rw [BitVec.toNat_shiftLeft, Nat.shiftLeft_eq, pow_one]

end

/-- The operand of a shift is the register that SHIFT_SRC selects (D7). -/
theorem shiftOperand_eq_reg {s : State} {x y src : Nibble}
    (h : (s.params.shiftSrc = .x ∧ src = x) ∨ (s.params.shiftSrc = .y ∧ src = y)) :
    s.shiftOperand x y = s.reg src := by
  obtain ⟨hsrc, rfl⟩ | ⟨hsrc, rfl⟩ := h <;> rw [State.shiftOperand, hsrc]

/-! ### The instructions that write a flag -/

/-- Settles O36: the sum and its carry, by `exec_of_setResultThenFlag`. -/
theorem addSetsCarry : Obligations.AddSetsCarry := by
  intro s x y
  obtain ⟨t, e, hflag, hres, hframe⟩ := exec_of_setResultThenFlag (exec_addReg s x y)
  exact ⟨t, e, hflag.trans (flagByte_carry _ _), fun hx => by rw [hres hx, BitVec.toNat_add], hframe⟩

/-- What SUB and SUBN share: minuend `a`, subtrahend `b` (R158, R160). -/
theorem exec_of_subtract {i : Instr} {s : State} {x : Nibble} {a b : Byte}
    (h : exec i s = .next (s.setResultThenFlag x (a - b) (noBorrow a b))) :
    ∃ t, exec i s = .next t ∧ t.reg 0xF#4 = (if a.toNat ≥ b.toNat then 1#8 else 0#8) ∧
      (x ≠ 0xF#4 → (t.reg x).toNat = (a.toNat + 256 - b.toNat) % 256) ∧
      (∀ r, r ≠ x → r ≠ 0xF#4 → t.reg r = s.reg r) ∧ SameBut [.regs] s t := by
  obtain ⟨t, e, hflag, hres, hframe⟩ := exec_of_setResultThenFlag h
  exact ⟨t, e, hflag.trans (flagByte_noBorrow a b), fun hx => by rw [hres hx, byte_sub_toNat], hframe⟩

/-- Settles O37: the two differ in which register is the minuend. -/
theorem subtractSetsNotBorrow : Obligations.SubtractSetsNotBorrow := fun s x y =>
  ⟨exec_of_subtract (exec_subReg s x y), exec_of_subtract (exec_subnReg s x y)⟩

/-- Settles O38: both shifts act on the selected register, and the flag is the bit they lose. -/
theorem shiftsMoveOneBitToTheFlag : Obligations.ShiftsMoveOneBitToTheFlag := by
  intro s x y src hsrc
  rw [← shiftOperand_eq_reg hsrc]
  constructor
  · obtain ⟨t, e, hflag, hres, hframe⟩ := exec_of_setResultThenFlag (exec_shr s x y)
    exact ⟨t, e, by rw [hflag, flagByte_toNat, lowBit_toNat],
      fun hx => by rw [hres hx, byte_shiftRight_one_toNat], hframe⟩
  · obtain ⟨t, e, hflag, hres, hframe⟩ := exec_of_setResultThenFlag (exec_shl s x y)
    exact ⟨t, e, by rw [hflag, flagByte_toNat, highBit_toNat],
      fun hx => by rw [hres hx, byte_shiftLeft_one_toNat], hframe⟩

/-! ### The instructions that write one register -/

/-- Settles O34: five writes of one register; the logic operations act bit by bit. -/
theorem movesAndLogicWriteOneRegister : Obligations.MovesAndLogicWriteOneRegister := by
  intro s x y kk
  refine ⟨exec_of_setReg (exec_ldImm s x kk), exec_of_setReg (exec_ldReg s x y), ?or, ?and, ?xor⟩
  case or =>
    obtain ⟨t, e, hres, hframe⟩ := exec_of_setReg (exec_orReg s x y)
    exact ⟨t, e, fun _ _ => by rw [hres, BitVec.getLsbD_or], hframe⟩
  case and =>
    obtain ⟨t, e, hres, hframe⟩ := exec_of_setReg (exec_andReg s x y)
    exact ⟨t, e, fun _ _ => by rw [hres, BitVec.getLsbD_and], hframe⟩
  case xor =>
    obtain ⟨t, e, hres, hframe⟩ := exec_of_setReg (exec_xorReg s x y)
    exact ⟨t, e, fun _ _ => by rw [hres, BitVec.getLsbD_xor], hframe⟩

/-- A word with top nibble 7 is ADD of an immediate (R95). -/
theorem decodeWord_addImm {w : Word} (hop : fieldOP w = 0x7#4) :
    decodeWord w = .addImm (fieldX w) (fieldNN w) := by
  simp [decodeWord, hop]

/-- Settles O35: mask 0xF000 looks at the top nibble alone, and the handler writes one register. -/
theorem addImmediateSetsNoFlag : Obligations.AddImmediateSetsNoFlag := by
  refine ⟨fun w hw => decodeWord_addImm ((mask_op w 0x7#4).mp hw), fun s x kk => ?_⟩
  obtain ⟨t, e, hres, hframe⟩ := exec_of_setReg (exec_addImm s x kk)
  exact ⟨t, e, by rw [hres, BitVec.toNat_add], hframe⟩

end Sys2Proof.Machine
end

section
/-! PROOF. The index register and the random byte (42_index_and_random.md): LD I, ADD I and LD F write `I` alone (R170 to
R172), RND writes one register and draws from the random port (R173, R174). -/

namespace Sys2Proof.Machine

/-! ### The index register -/

/-- A handler that writes `I` changes nothing else. -/
theorem exec_of_index {i : Instr} {s : State} {w : Word} {a : Nat}
    (h : exec i s = .next { s with i := w }) (hw : w.toNat = a) :
    ∃ t, exec i s = .next t ∧ t.i.toNat = a ∧ SameBut [.index] s t :=
  ⟨_, h, hw, (keptBut_index s w).sameBut⟩

/-- Settles O39: three writes of `I`; only the sum can wrap. -/
theorem indexInstructionsWriteI : Obligations.IndexInstructionsWriteI := by
  intro s nnn x
  refine ⟨exec_of_index (exec_ldI s nnn) (addrWord_toNat nnn), exec_of_index (exec_addI s x) ?sum,
    exec_of_index (exec_ldF s x) (glyphAddress_toNat (s.reg x))⟩
  case sum => rw [BitVec.toNat_add, byteWord_toNat]

/-! ### The mask of RND -/

section
variable (b mask : Byte)

/-- A masked byte has no bit outside the mask. -/
theorem and_and_not_mask : b &&& mask &&& ~~~mask = 0#8 := by
  rw [BitVec.and_assoc, BitVec.and_not_self]
  exact BitVec.and_zero

variable {b mask}

/-- A byte with no bit outside the mask is its own masked value. -/
theorem and_mask_eq_self (h : b &&& ~~~mask = 0#8) : b &&& mask = b :=
  calc b &&& mask = (b &&& mask) ||| (b &&& ~~~mask) := by rw [h, BitVec.or_zero]
    _ = b &&& (mask ||| ~~~mask) := BitVec.and_or_distrib_left.symm
    _ = b := by rw [BitVec.or_not_self, BitVec.and_allOnes]

end

/-! ### RND -/

section
variable (s : State) (x : Nibble) (mask : Byte)

/-- RND writes the masked byte of its draw, and changes nothing else but the random port (R173). -/
theorem exec_rnd_writes : ∃ t, exec (.rnd x mask) s = .next t ∧ t.reg x = s.randomByte &&& mask ∧
    (∀ r, r ≠ x → t.reg r = s.reg r) ∧ SameBut [.regs, .random] s t := by
  have hreg r := reg_setReg s.consumeRandom x r (s.randomByte &&& mask)
  exact ⟨_, exec_rnd s x mask, (hreg x).trans (if_pos rfl),
    fun r hr => (hreg r).trans ((if_neg hr).trans (reg_consumeRandom s r)),
    (keptBut_setReg_consumeRandom s x _).sameBut⟩

/-- With a byte supplied, RND masks that byte and writes the state without it (R38, R174). -/
theorem exec_rnd_supplied (rnd : Byte) :
    exec (.rnd x mask) { s with rndInput := rnd :: s.rndInput } = .next (s.setReg x (rnd &&& mask)) := by
  obtain ⟨hbyte, hrest⟩ := randomByte_cons s rnd s.rndInput
  rw [exec_rnd, hbyte, hrest]

end

/-- Settles O40: every draw is masked, and a byte under the mask is the result of supplying that byte itself. -/
theorem randomAllowsEveryByteUnderTheMask : Obligations.RandomAllowsEveryByteUnderTheMask := by
  intro s x kk
  have hread (b : Byte) : (s.setReg x b).reg x = b := (reg_setReg s x x b).trans (if_pos rfl)
  refine ⟨?masked, fun b hb => ?possible, fun rnd => ⟨_, exec_rnd_supplied s x kk rnd, hread _⟩⟩
  case masked =>
    obtain ⟨t, e, hres, hframe⟩ := exec_rnd_writes s x kk
    exact ⟨t, e, by rw [hres, and_and_not_mask], hframe⟩
  case possible =>
    exact ⟨b, _, exec_rnd_supplied s x kk b, (hread _).trans (and_mask_eq_self hb), rfl, rfl⟩

end Sys2Proof.Machine
end

section
/-! PROOF. The display (43_display.md): CLS (R183), the sprite DRW plots and its collision flag (R181, R182), two draws at
one place (R181), and which steps write the display and the redraw flag (R184). -/

namespace Sys2Proof.Machine

/-! ### CLS -/

/-- A word of family 0 with low byte 0xE0 is CLS (R96). -/
theorem decodeWord_cls {w : Word} (hop : fieldOP w = 0x0#4) (hkey : fieldNN w = 0xE0#8) :
    decodeWord w = .cls (fieldX w) := by
  simp [decodeWord_family0 hop, decodeFamily0, hkey]

/-- Settles O41: mask 0xF0FF looks at the top nibble and the low byte, and the handler blanks the display. -/
theorem clearScreenZeroesEveryPixel : Obligations.ClearScreenZeroesEveryPixel := by
  refine ⟨fun w hw => ?_, fun s ign =>
    ⟨_, exec_cls s ign, pixel_blank, rfl, (keptBut_disp_redraw s _ _).sameBut⟩⟩
  obtain ⟨hop, hkey⟩ := (mask_op_NN w 0x0#4 0xE0#8).mp hw
  exact decodeWord_cls hop hkey

/-! ### What DRW plots -/

/-- The sprite of a DRW, pixel by pixel: no two of its set bits meet (`separate_spritePixels`), so each covered
pixel is toggled once, and a hit is a covered pixel that was 1. -/
theorem drawn_spec (s : State) (x y n : Nibble) :
    (∀ px py,
      (SpriteCovers s x y n px py → Display.pixel (s.drawn x y n).1 px py = !s.pixel px py) ∧
      (¬ SpriteCovers s x y n px py → Display.pixel (s.drawn x y n).1 px py = s.pixel px py)) ∧
    ((s.drawn x y n).2 = true ↔ ∃ px py, SpriteCovers s x y n px py ∧ s.pixel px py = true) := by
  have hlen : (s.mem.readBytes s.i.toNat n.toNat).length ≤ 15 := by
    have := n.isLt
    rw [Memory.length_readBytes]
    omega
  obtain ⟨hpixel, hhit⟩ := plotAll_spec s.params.drawEdge _
    (separate_spritePixels _ ((s.reg x).toNat % 64) ((s.reg y).toNat % 32) _ hlen) (s.disp, false)
  simp only [← spriteCovers_iff] at hpixel hhit
  exact ⟨hpixel, hhit.trans (or_iff_right Bool.false_ne_true)⟩

/-! ### A DRW that completes -/

theorem flagByte_eq_one (f : Bool) : flagByte f = 1#8 ↔ f = true := by
  cases f <;> decide

section
variable {s t : State} {x y n : Nibble} (h : exec (.drw x y n) s = .next t)
include h

theorem pixel_of_drw_covered {px : Fin 64} {py : Fin 32} (hc : SpriteCovers s x y n px py) :
    t.pixel px py = !s.pixel px py := by
  rw [exec_drw_next h]
  exact ((drawn_spec s x y n).left px py).left hc

theorem pixel_of_drw_uncovered {px : Fin 64} {py : Fin 32} (hc : ¬ SpriteCovers s x y n px py) :
    t.pixel px py = s.pixel px py := by
  rw [exec_drw_next h]
  exact ((drawn_spec s x y n).left px py).right hc

theorem reg_regF_of_drw : t.reg regF = flagByte (s.drawn x y n).2 := by
  rw [exec_drw_next h]
  exact (reg_setFlag s regF _).trans (if_pos rfl)

theorem redraw_of_drw : t.redraw = true := by
  rw [exec_drw_next h]

/-- `VF` is 1 exactly when a covered pixel was 1 (R22, R181). -/
theorem reg_regF_of_drw_eq_one_iff :
    t.reg regF = 1#8 ↔ ∃ px py, SpriteCovers s x y n px py ∧ s.pixel px py = true := by
  rw [reg_regF_of_drw h, flagByte_eq_one, (drawn_spec s x y n).right]

/-- `VF` is 0 when every covered pixel was 0. -/
theorem reg_regF_of_drw_eq_zero (hclear : ∀ px py, SpriteCovers s x y n px py → s.pixel px py = false) :
    t.reg regF = 0#8 := by
  have hmiss : (s.drawn x y n).2 = false := by
    rw [← Bool.not_eq_true, (drawn_spec s x y n).right]
    rintro ⟨px, py, hc, hset⟩
    simp [hclear px py hc] at hset
  rw [reg_regF_of_drw h, hmiss]
  rfl

/-- With `X` and `Y` not 15 a draw leaves all that places its sprite, so the next one covers the same pixels. -/
theorem spriteCovers_of_drw (hx : x ≠ regF) (hy : y ≠ regF) (px : Fin 64) (py : Fin 32) :
    SpriteCovers t x y n px py ↔ SpriteCovers s x y n px py := by
  obtain ⟨hreg, hkept⟩ := exec_framed h
  have hmem : t.mem = s.mem := hkept .mem (by simp [Instr.mayWrite])
  exact spriteCovers_congr (hkept .index (by simp [Instr.mayWrite])) (fun _ => by rw [hmem])
    (hreg x (by simpa [Instr.mayWriteReg] using hx)) (hreg y (by simpa [Instr.mayWriteReg] using hy))
    (hkept .params (by simp [Instr.mayWrite]))

/-- The pixels a draw sets are the covered ones that are 1 after it. -/
theorem covered_and_set_iff_of_drw (px : Fin 64) (py : Fin 32) :
    SpriteCovers s x y n px py ∧ t.pixel px py = true ↔ s.pixel px py = false ∧ t.pixel px py = true := by
  refine and_congr_left fun hset => ?_
  by_cases hc : SpriteCovers s x y n px py
  · have hpixel := pixel_of_drw_covered h hc
    simp_all
  · have hpixel := pixel_of_drw_uncovered h hc
    simp_all

end

/-- Settles O42: the range check in its two cases; pixels and flag by `drawn_spec`, the rest by the frame. -/
theorem drawXorsTheSprite : Obligations.DrawXorsTheSprite := by
  intro s x y n
  obtain ⟨hle, e⟩ | ⟨hgt, e⟩ := exec_drw_cases s x y n
  · obtain ⟨hreg, hkept⟩ := exec_framed e
    refine ⟨fun _ => ⟨_, e, fun px py => ⟨pixel_of_drw_covered e, pixel_of_drw_uncovered e⟩,
      (reg_regF_of_drw_eq_one_iff e).mpr, reg_regF_of_drw_eq_zero e, redraw_of_drw e,
      fun r hr => hreg r (by simp [Instr.mayWriteReg, regF, hr]), hkept.sameBut⟩, by omega⟩
  · exact ⟨by omega, fun _ => e⟩

/-! ### Two draws at one place -/

/-- Settles O43: both draws cover the same pixels, so the second toggles back what the first toggled. -/
theorem drawingTwiceRestoresTheDisplay : Obligations.DrawingTwiceRestoresTheDisplay := by
  intro s t u x y n hx hy hst htu
  have hsame := spriteCovers_of_drw hst hx hy
  refine ⟨fun px py => ?_, ?_⟩
  · by_cases hc : SpriteCovers s x y n px py
    · rw [pixel_of_drw_covered htu ((hsame px py).mpr hc), pixel_of_drw_covered hst hc, Bool.not_not]
    · rw [pixel_of_drw_uncovered htu (mt (hsame px py).mp hc), pixel_of_drw_uncovered hst hc]
  · refine (reg_regF_of_drw_eq_one_iff htu).trans (exists₂_congr fun px py => ?_)
    rw [hsame px py, covered_and_set_iff_of_drw hst]

/-! ### Which steps write the display and the redraw flag -/

/-- The two instructions of the display (R184). -/
def DrawsOrClears (i : Instr) : Prop := (∃ x y n, i = .drw x y n) ∨ ∃ ign, i = .cls ign

section
variable {i : Instr} {s t : State}

theorem drawsOrClears_of_mem_mayWrite (hmem : Part.disp ∈ i.mayWrite ∨ Part.redraw ∈ i.mayWrite) :
    DrawsOrClears i := by
  cases i <;> simp_all [Instr.mayWrite, DrawsOrClears]

/-- DRW and CLS set the redraw flag whenever they complete (R184). -/
theorem exec_redraw (h : exec i s = .next t) (hi : DrawsOrClears i) :
    t.redraw = true := by
  obtain ⟨x, y, n, rfl⟩ | ⟨ign, rfl⟩ := hi
  · exact redraw_of_drw h
  · obtain rfl := Host.Outcome.next.inj h
    rfl

/-- Every other instruction leaves the flag and the display as they were (R184). -/
theorem exec_keeps_display (h : exec i s = .next t) (hi : ¬ DrawsOrClears i) :
    t.redraw = s.redraw ∧ ∀ px py, t.pixel px py = s.pixel px py :=
  ⟨kept_of_exec (p := .redraw) h (by simp) fun hmem => hi (drawsOrClears_of_mem_mayWrite (.inr hmem)),
    Part.same_of_kept (p := .disp)
      (kept_of_exec h (by simp) fun hmem => hi (drawsOrClears_of_mem_mayWrite (.inl hmem)))⟩

end

/-- Settles O19: the fetch writes neither, completing handlers as above, and an error comes before every write. -/
theorem redrawFlagIsSetByDrawAndClearOnly : Obligations.RedrawFlagIsSetByDrawAndClearOnly := by
  intro s
  constructor
  · intro t h
    obtain ⟨_, hexec⟩ := exec_of_step_next h
    exact ⟨exec_redraw hexec, exec_keeps_display (s := s.advance) hexec⟩
  · intro f h
    obtain e | e := step_fault_after h <;> rw [e] <;> exact ⟨rfl, fun _ _ => rfl⟩

end Sys2Proof.Machine
end

section
/-! PROOF. Keys and the moves of the timers (44_input_and_timers.md): the skips on a key (R190, R191, R197), the key wait
(R192) and the three instructions that move a timer byte (R193 to R195). -/

namespace Sys2Proof.Machine

/-! ### The skips on a key -/

/-- SKP and SKNP look at the key whose index is the low four bits of `V[X]` (R197). -/
theorem keyIndex_eq {s : State} {x k : Nibble} (h : k.toNat = (s.reg x).toNat % 16) : s.keyIndex x = k :=
  BitVec.eq_of_toNat_eq ((keyIndex_toNat s x).trans h.symm)

/-- Settles O44: two conditional skips on one key, SKNP on its negation. -/
theorem keySkipsTestOneKey : Obligations.KeySkipsTestOneKey := by
  intro s x k hk
  rw [← keyIndex_eq hk]
  refine ⟨exec_of_skipIf (exec_skp s x) Iff.rfl, ?sknp⟩
  case sknp =>
    obtain ⟨t, e, hframe, hpc⟩ := exec_of_skipIf (P := ¬ s.key (s.keyIndex x) = true) (exec_sknp s x) (by simp)
    exact ⟨t, e, hframe, hpc.trans (ite_not ..)⟩

/-! ### The key wait -/

/-- Settles O45: the reported key is extremal among the pressed ones (`le_reportedKey`, `reportedKey_le`). -/
theorem keyWaitReportsAPressedKey : Obligations.KeyWaitReportsAPressedKey := by
  intro s x
  obtain ⟨hnone, e⟩ | ⟨k, hk, e⟩ := exec_ldVxK_cases s x
  · rw [reportedKey_eq_none_iff] at hnone
    refine ⟨fun _ => ⟨_, e, rewind_pc s, (keptBut_pc s _).sameBut⟩, ?_⟩
    rintro ⟨k, hpressed⟩
    simp [hnone k] at hpressed
  · have hpressed : s.key k = true := key_of_reportedKey hk
    refine ⟨fun hnone => by simp [hnone k] at hpressed, fun _ => ?_⟩
    obtain ⟨t, e, hres, hframe⟩ := exec_of_setReg e
    have hindex : (t.reg x).toNat = k.toNat := by rw [hres, BitVec.toNat_setWidth_of_le (by decide)]
    exact ⟨t, k, e, hpressed, hindex, fun hp _ => le_reportedKey hp hk,
      fun hp _ => reportedKey_le hp hk, hframe⟩

/-! ### The moves of the timers -/

/-- Settles O47: a write of one register, and two writes of one timer. -/
theorem timerInstructionsMoveOneByte : Obligations.TimerInstructionsMoveOneByte := fun s x =>
  ⟨exec_of_setReg (exec_ldVxDT s x),
    ⟨_, exec_ldDTVx s x, rfl, (keptBut_dt s _).sameBut⟩,
    ⟨_, exec_ldSTVx s x, rfl, (keptBut_st s _).sameBut⟩⟩

end Sys2Proof.Machine
end

section
/-! PROOF. The block transfers (45_memory_block.md): the decimal digits (R201), the register-range store and load (R202,
R203), and the load as the inverse of the store. -/

namespace Sys2Proof.Machine

/-- Inside its block a write leaves byte `k` of the list at offset `k` (R63). -/
theorem Memory.read_writeBytes_inside {m : Memory} {a k : Nat} {bs : List Byte} {b : Byte} (h : bs[k]? = some b) :
    (m.writeBytes a bs).read (a + k) = b := by
  obtain ⟨hk, _⟩ := List.getElem?_eq_some_iff.mp h
  rw [Memory.read_writeBytes, if_pos (by omega), Nat.add_sub_cancel_left, h, Option.getD_some]

/-! ### The decimal digits -/

/-- A word of family F with low byte 0x33 is LD B (R99). -/
theorem decodeWord_ldB {w : Word} (hop : fieldOP w = 0xF#4) (hkey : fieldNN w = 0x33#8) :
    decodeWord w = .ldB (fieldX w) := by
  simp [decodeWord_familyF hop, decodeFamilyF, hkey]

/-- Hundreds, tens and ones of a byte are below 256, so each is its byte's value. -/
theorem map_toNat_decimalDigits (b : Byte) :
    (decimalDigits b).map BitVec.toNat = [b.toNat / 100, b.toNat / 10 % 10, b.toNat % 10] := by
  have hb := b.isLt
  simp (disch := omega) [decimalDigits, Nat.mod_eq_of_lt]

section
variable {s t : State} {x k : Nibble}

/-- After LD B the digits of `V[X]` stand at `I` in this order (R201). -/
theorem read_of_ldB (h : exec (.ldB x) s = .next t) {j n : Nat}
    (hn : [(s.reg x).toNat / 100, (s.reg x).toNat / 10 % 10, (s.reg x).toNat % 10][j]? = some n) :
    (t.mem.read (s.i.toNat + j)).toNat = n := by
  rw [← map_toNat_decimalDigits, List.getElem?_map, Option.map_eq_some_iff] at hn
  obtain ⟨d, hd, rfl⟩ := hn
  obtain ⟨_, rfl⟩ := exec_ldB_next h
  exact congrArg BitVec.toNat (Memory.read_writeBytes_inside hd)

/-! ### The register ranges -/

/-- After LD [I] the byte at `I + k` is register `k` of the range (R202). -/
theorem read_of_ldMemVx (h : exec (.ldMemVx x) s = .next t) (hk : k.toNat ≤ x.toNat) :
    t.mem.read (s.i.toNat + k.toNat) = s.reg k := by
  obtain ⟨_, rfl⟩ := exec_ldMemVx_next h
  refine Memory.read_writeBytes_inside ?_
  rw [regs_getElem?, if_pos (by omega), BitVec.ofNat_toNat, BitVec.setWidth_eq]

/-- After LD Vx, [I] register `k` of the range is the byte at `I + k` (R203). -/
theorem reg_of_ldVxMem (h : exec (.ldVxMem x) s = .next t) (hk : k.toNat ≤ x.toNat) :
    t.reg k = s.mem.read (s.i.toNat + k.toNat) := by
  have hx := x.isLt
  have hzero : (0x0#4).toNat = 0 := rfl
  rw [exec_ldVxMem_next h, reg_setRegs _ _ _ _ (by rw [Memory.length_readBytes]; omega),
    if_pos (by rw [Memory.length_readBytes]; omega), hzero, Nat.sub_zero, Memory.getElem?_readBytes,
    if_pos (by omega), Option.getD_some]

end

/-- Settles O49: mask 0xF0FF looks at the top nibble and the low byte; the handler is a block write of the digits. -/
theorem decimalDigitsAreStored : Obligations.DecimalDigitsAreStored := by
  refine ⟨fun w hw => ?decode, fun s x => ?store⟩
  case decode =>
    obtain ⟨hop, hkey⟩ := (mask_op_NN w 0xF#4 0x33#8).mp hw
    exact decodeWord_ldB hop hkey
  case store =>
    obtain ⟨hle, e⟩ | ⟨hgt, e⟩ := exec_ldB_cases s x
    · exact ⟨fun _ => ⟨_, e, read_of_ldB (j := 0) e rfl, read_of_ldB (j := 1) e rfl, read_of_ldB (j := 2) e rfl,
        fun a ha => Memory.read_writeBytes_outside ha, (keptBut_mem s _).sameBut⟩, by omega⟩
    · exact ⟨by omega, fun _ => e⟩

/-- Settles O50: the range check in its two cases; the handler is a block write of `V[0]` to `V[X]`. -/
theorem registerRangeIsStored : Obligations.RegisterRangeIsStored := by
  intro s x
  obtain ⟨hle, e⟩ | ⟨hgt, e⟩ := exec_ldMemVx_cases s x
  · exact ⟨fun _ => ⟨_, e, fun k hk => read_of_ldMemVx e hk,
      fun a ha => Memory.read_writeBytes_outside (by rw [regs_length]; omega), (keptBut_mem s _).sameBut⟩, by omega⟩
  · exact ⟨by omega, fun _ => e⟩

/-- Settles O51: the range check in its two cases; the registers above `X` are kept by the frame. -/
theorem registerRangeIsLoaded : Obligations.RegisterRangeIsLoaded := by
  intro s x
  obtain ⟨hle, e⟩ | ⟨hgt, e⟩ := exec_ldVxMem_cases s x
  · obtain ⟨hreg, hkept⟩ := exec_framed e
    exact ⟨fun _ => ⟨_, e, fun k hk => reg_of_ldVxMem e hk,
      fun k hk => hreg k (decide_eq_false (Nat.not_le.mpr hk)), hkept.sameBut⟩, by omega⟩
  · exact ⟨by omega, fun _ => e⟩

/-- Settles O52: the store's range check is the load's, and the load reads back what stands at `I + k`. -/
theorem loadInvertsStore : Obligations.LoadInvertsStore := by
  intro s t u x hst hi hmem
  obtain ⟨hle, _⟩ := exec_ldMemVx_next hst
  obtain ⟨_, e⟩ | ⟨hgt, _⟩ := exec_ldVxMem_cases u x
  · refine ⟨_, e, fun k hk => ?_⟩
    rw [reg_of_ldVxMem e hk, hi, hmem, read_of_ldMemVx hst hk]
  · rw [hi] at hgt
    omega

end Sys2Proof.Machine
end

section
/-! PROOF. Errors (60_exceptions.md): the state an error carries (R213, R214), the status of every step by its cause
(R212, R215), and the timer tick (R224). -/

namespace Sys2Proof.Machine

/-! ### The state after an error -/

/-- Settles O23: a failed fetch answers with the state itself, a handler with the advanced state it was given. -/
theorem errorsCarryTheStateOfTheRule : Obligations.ErrorsCarryTheStateOfTheRule := by
  intro s f h
  obtain ⟨hodd, e⟩ | ⟨_, hge, e⟩ | ⟨hf, e⟩ := step_cases s <;> rw [e] at h
  · cases h
    exact .inl ⟨fun ⟨heven, _⟩ => by omega, rfl⟩
  · cases h
    exact .inl ⟨fun ⟨_, hle⟩ => by omega, rfl⟩
  · exact .inr ⟨hf, exec_fault_after h⟩

/-! ### The status of a result -/

section
variable (s : State)

@[simp] theorem statusCode_next : statusCode (.next s) = some 0 := rfl
@[simp] theorem statusCode_invalidAddress : statusCode (.fault (.invalidAddress s)) = some 3 := rfl
@[simp] theorem statusCode_memoryOutOfBounds : statusCode (.fault (.memoryOutOfBounds s)) = some 4 := rfl
@[simp] theorem statusCode_stackOverflow : statusCode (.fault (.stackOverflow s)) = some 5 := rfl
@[simp] theorem statusCode_stackUnderflow : statusCode (.fault (.stackUnderflow s)) = some 6 := rfl
@[simp] theorem statusCode_refused (r : Refusal) : statusCode (.refused r) = none := rfl

end

/-- Status 0 is kept for completion: no error has code 0 (R211, D17). -/
theorem statusCode_eq_zero_iff (r : Result) : statusCode r = some 0 ↔ ∃ t, r = .next t := by
  cases r with
  | next t => simp
  | fault f => cases f <;> simp
  | refused _ => simp

/-! ### What an instruction can answer, by the sort of instruction -/

section
variable {i : Instr} (s : State)

/-- An instruction with a block at `I` completes when the block ends by 4096, else its range check fails
(R181, R200). -/
theorem exec_of_blockLength {len : Nat} (hb : i.blockLength = some len) :
    (s.i.toNat + len ≤ 4096 ∧ ∃ t, exec i s = .next t) ∨
    (4096 < s.i.toNat + len ∧ exec i s = .fault (.memoryOutOfBounds s)) := by
  cases i with
  | drw x y n =>
    obtain rfl := Option.some.inj hb
    exact (exec_drw_cases s x y n).imp_left fun ⟨hle, e⟩ => ⟨hle, _, e⟩
  | ldB x =>
    obtain rfl := Option.some.inj hb
    exact (exec_ldB_cases s x).imp_left fun ⟨hle, e⟩ => ⟨hle, _, e⟩
  | ldMemVx x =>
    obtain rfl := Option.some.inj hb
    exact (exec_ldMemVx_cases s x).imp_left fun ⟨hle, e⟩ => ⟨hle, _, e⟩
  | ldVxMem x =>
    obtain rfl := Option.some.inj hb
    exact (exec_ldVxMem_cases s x).imp_left fun ⟨hle, e⟩ => ⟨hle, _, e⟩
  | _ => cases hb

/-- An instruction that accesses neither memory nor the stack always completes. -/
theorem exec_of_no_block (hcall : ¬ i.isCall) (hret : ¬ i.isRet) (hb : i.blockLength = none) :
    ∃ t, exec i s = .next t := by
  cases i with
  | call nnn => exact absurd ⟨nnn, rfl⟩ hcall
  | ret ign => exact absurd ⟨ign, rfl⟩ hret
  | drw _ _ _ | ldB _ | ldMemVx _ | ldVxMem _ => cases hb
  | ldVxK x => obtain ⟨_, e⟩ | ⟨_, _, e⟩ := exec_ldVxK_cases s x <;> exact ⟨_, e⟩
  | _ => exact ⟨_, rfl⟩

end

/-! ### The table of causes -/

/-- The table of causes of the handlers (R212): the status `c` says which of the causes holds for `i` in `s`. -/
structure HandlerStatus (i : Instr) (s : State) (c : Option Nat) : Prop where
  invalidAddress : c ≠ some 3
  memoryOutOfBounds : c = some 4 ↔ ∃ len, i.blockLength = some len ∧ 4096 < s.i.toNat + len
  stackOverflow : c = some 5 ↔ i.isCall ∧ 16 ≤ s.sp.toNat
  stackUnderflow : c = some 6 ↔ i.isRet ∧ s.sp.toNat = 0
  refused : c = none ↔ i.isRet ∧ 16 < s.sp.toNat

section
variable (s : State)

theorem handlerStatus_call (nnn : Addr) :
    HandlerStatus (.call nnn) s (statusCode (exec (.call nnn) s)) := by
  obtain ⟨hlt, e⟩ | ⟨hge, e⟩ := exec_call_cases s nnn <;> rw [e]
  · constructor <;> simp [Instr.blockLength, Instr.isCall, Instr.isRet, hlt]
  · constructor <;> simp [Instr.blockLength, Instr.isCall, Instr.isRet, hge]

theorem handlerStatus_ret (ign : Nibble) :
    HandlerStatus (.ret ign) s (statusCode (exec (.ret ign) s)) := by
  obtain ⟨hzero, e⟩ | ⟨hpos, hle, _, _, e⟩ | ⟨hgt, e⟩ := exec_ret_cases s ign <;> rw [e]
  · constructor <;> simp [Instr.blockLength, Instr.isCall, Instr.isRet, hzero]
  · have hne : s.sp.toNat ≠ 0 := by omega
    constructor <;> simp [Instr.blockLength, Instr.isCall, Instr.isRet, hne, hle]
  · have hne : s.sp.toNat ≠ 0 := by omega
    constructor <;> simp [Instr.blockLength, Instr.isCall, Instr.isRet, hne, hgt]

/-- Every handler answers with the status the table names: CALL and RET by `SP`, the instructions with a block
by its end, and the others by completing. -/
theorem handlerStatus_exec (i : Instr) : HandlerStatus i s (statusCode (exec i s)) := by
  by_cases hcall : i.isCall
  · obtain ⟨nnn, rfl⟩ := hcall
    exact handlerStatus_call s nnn
  by_cases hret : i.isRet
  · obtain ⟨ign, rfl⟩ := hret
    exact handlerStatus_ret s ign
  cases hb : i.blockLength with
  | none =>
    obtain ⟨t, e⟩ := exec_of_no_block s hcall hret hb
    rw [e]
    constructor <;> simp [hcall, hret, hb]
  | some len =>
    obtain ⟨hle, t, e⟩ | ⟨hgt, e⟩ := exec_of_blockLength s hb <;> rw [e]
    · constructor <;> simp [hcall, hret, hb, hle]
    · constructor <;> simp [hcall, hret, hb, hgt]

end

/-- Settles O24: the two errors of the fetch by `step_cases`, the handlers by `handlerStatus_exec`. -/
theorem statusIsExactlyTheTableOfCauses : Obligations.StatusIsExactlyTheTableOfCauses := by
  intro s
  have hzero : statusCode (step s) = some 0 ↔ ∃ t, step s = .next t := statusCode_eq_zero_iff (step s)
  obtain ⟨hodd, e⟩ | ⟨heven, hge, e⟩ | ⟨hf, e⟩ := step_cases s
  · have hnot : ¬ s.fetchable := fun ⟨heven, _⟩ => by omega
    refine ⟨?_, ?_, ?_, ?_, ?_, hzero⟩ <;> simp [e, hodd, hnot]
  · have hnot : ¬ s.fetchable := fun ⟨_, hle⟩ => by omega
    refine ⟨?_, ?_, ?_, ?_, ?_, hzero⟩ <;> simp [e, heven, hge, hnot]
  · obtain ⟨hinvalid, hbounds, hoverflow, hunderflow, hrefused⟩ := handlerStatus_exec s.advance s.current
    have ⟨heven, hle⟩ := hf
    have hlt : ¬ 4096 ≤ s.pc.toNat := by omega
    rw [← e] at hinvalid hbounds hoverflow hunderflow hrefused
    exact ⟨by simp [hinvalid, heven], by simp [hbounds, heven, hlt, hf], by simp [hoverflow, hf],
      by simp [hunderflow, hf], by simp [hrefused, hf], hzero⟩

/-! ### The timer tick -/

theorem keptBut_tickTimers (s : State) : KeptBut [.dt, .st] s (tickTimers s) := by
  intro p hp; cases p <;> simp_all [Part.kept, tickTimers]

/-- Settles O48: both counters by `tickDown_toNat`. -/
theorem tickDecrementsNonzeroTimers : Obligations.TickDecrementsNonzeroTimers := fun s =>
  ⟨tickTimers s, rfl, tickDown_toNat s.dt, tickDown_toNat s.st, (keptBut_tickTimers s).sameBut⟩

end Sys2Proof.Machine
end

section
/-! PROOF. Fixed points of the step (70_reset_and_hazards.md): the self-jump that ends a run (R254; D20) and the key
wait while no key is pressed (R249). Both handlers undo the advance of the fetch. -/

namespace Sys2Proof.Machine

/-! ### Undoing the advance -/

section
variable (s : State)

theorem advance_jumpTo_pc : s.advance.jumpTo s.pc = s := rfl

theorem advance_rewind : s.advance.rewind = s := by
  rw [State.rewind, advance_pc, BitVec.add_sub_cancel]
  rfl

end

/-! ### The self-jump -/

/-- A word with an address field is the opcode above 12 bits of address. -/
theorem wordNNN_toNat (op : Nibble) (nnn : Addr) : (wordNNN op nnn).toNat = 2 ^ 12 * op.toNat + nnn.toNat := by
  have hop := op.isLt
  have hshift : (op.setWidth 16 <<< 12).toNat = 2 ^ 12 * op.toNat := by
    rw [BitVec.toNat_shiftLeft, BitVec.toNat_setWidth_of_le (by decide), Nat.shiftLeft_eq]
    omega
  rw [wordNNN, BitVec.toNat_or, hshift, BitVec.toNat_setWidth_of_le (by decide),
    Nat.two_pow_add_eq_or_of_lt nnn.isLt]

/-- The word of a jump is 0x1000 plus its target (R95, R133). -/
theorem encode_jp (nnn : Addr) : encode (.jp nnn) = 0x1000#16 + addrWord nnn := by
  have hlt := nnn.isLt
  refine BitVec.eq_of_toNat_eq ?_
  rw [encode, wordNNN_toNat, BitVec.toNat_add, addrWord_toNat, BitVec.toNat_ofNat, BitVec.toNat_ofNat]
  omega

/-- An address below 4096 fits the 12 bits of a jump's target. -/
theorem addrWord_setWidth {a : Word} (h : a.toNat < 4096) : addrWord (a.setWidth 12) = a := by
  refine BitVec.eq_of_toNat_eq ?_
  rw [addrWord_toNat, BitVec.toNat_setWidth, Nat.mod_eq_of_lt h]

/-- At a self-jump the next step runs a `JP` whose target is `pc`. -/
theorem current_of_atSelfJump {s : State} (h : s.atSelfJump) :
    ∃ nnn, addrWord nnn = s.pc ∧ s.current = .jp nnn := by
  obtain ⟨⟨_, hle⟩, hword⟩ := h
  have htarget : addrWord (s.pc.setWidth 12) = s.pc := addrWord_setWidth (by omega)
  have hencode : fetchedWord s = encode (.jp (s.pc.setWidth 12)) := by rw [encode_jp, htarget, hword]
  exact ⟨_, htarget, by rw [State.current, hencode, decodeWord_encode rfl]⟩

/-- Settles O32: the jump goes back to the `pc` that the fetch advanced. -/
theorem selfJumpIsAFixedPoint : Obligations.SelfJumpIsAFixedPoint := by
  intro s h
  obtain ⟨nnn, htarget, hcur⟩ := current_of_atSelfJump h
  obtain ⟨hf, _⟩ := h
  rw [step_of_fetchable hf, hcur, exec_jp, htarget, advance_jumpTo_pc]

/-! ### The key wait -/

/-- Settles O46: with no key to report the handler takes `pc` back by the 2 of the fetch. -/
theorem keyWaitIsAFixedPointWithoutKeys : Obligations.KeyWaitIsAFixedPointWithoutKeys := by
  intro s x hf hcur hkeys
  have hnone : s.advance.reportedKey = none := (reportedKey_eq_none_iff _).mpr hkeys
  obtain ⟨_, e⟩ := (exec_ldVxK_cases s.advance x).resolve_right (by simp [hnone])
  rw [step_of_fetchable hf, hcur, e, advance_rewind]

end Sys2Proof.Machine
end
